-- ==== Sys2Proof/Word.lean ====
section
/-! DEFINITION. The machine's word types: an 8-bit byte (00_scope.md rule R8) and a register index. -/

namespace Sys2Proof

/-- A byte: a memory cell, a register, an address, the program counter, the stack pointer (R6, R8). All are unsigned. -/
abbrev Byte := BitVec 8

/-- A checked register index, 0 to 7 (10_state.md rule R23). -/
abbrev RegIdx := Fin 8

end Sys2Proof
end

