-- ==== Sys2Proof/Config.lean ====
section
/-! DEFINITION. The implementation parameters of 00_scope.md rules R6 and R7 that are numbers, each at the value the spec takes. -/

namespace Sys2Proof.Config

/-- MEM_CELLS (R6): the number of memory cells, addressed 0 to 255. -/
abbrev memCells : Nat := 256

/-- NREG (R6): the number of registers. -/
def numRegs : Nat := 8

/-- SP_REG (R6): the register whose reset value seeds the stack pointer. -/
def spReg : RegIdx := 7

/-- SP_INIT (R6): the value of register 7 and of the stack pointer after reset. -/
def spInit : Byte := 0xF4

/-- PC_INIT (R6): the value of the program counter after reset. -/
def pcInit : Byte := 0

/-- LOAD_BASE (R6): the address of the first loaded byte. -/
def loadBase : Nat := 0

/-- INIT_REG (R7): R0 to R6 after reset. PRESUMED (the spec's D11, from general knowledge): unsafe, log 1. -/
def initReg : Byte := 0

/-- INIT_MEM (R7): a memory cell nothing has written. PRESUMED (the spec's D11, from general knowledge): unsafe, log 2. -/
def initMem : Byte := 0

end Sys2Proof.Config
end

