-- ==== Sys2Proof/Machine/State.lean ====
section
/-! DEFINITION. The architectural state of the engine (10_state.md rules R20 to R37), the reasons a step can stop, and reset. -/

namespace Sys2Proof.Machine

/-- The host interface's fault outcome. EMPTY: no step of this engine ends in it. The engine's own four fault causes have
an effect the spec describes (60_exceptions.md rule R201: the run status becomes FAULTED(cause, value) and nothing else
changes), so raising one is a next state, with the cause recorded in `State.status` (log 7). Safe: nothing is ruled out. -/
inductive Fault where
  deriving DecidableEq, Repr

/-- The host interface's refusal outcome. -/
inductive Refusal where
  /-- Raised only by an arm of `exec` whose instruction has no meaning yet (none is left). Safe: the model stops. -/
  | notModelled (mnemonic : String)
  deriving DecidableEq, Repr

/-- The cause of a terminal fault and the value recorded with it (60_exceptions.md rule R202). -/
inductive Cause where
  /-- Code 1: the byte at `pc` is not one of the twelve opcodes (R203). -/
  | illegalOpcode (op : Byte)
  /-- Code 2: the ALU, driven directly, got a tag other than ADD, MUL, CMP (R204). No program raises it. -/
  | unsupportedAluOp (tag : String)
  /-- Code 3: an address, new `pc`, new `sp` or return address outside 0 to 255 (R205). -/
  | addressRange (v : Int)
  /-- Code 4: a register index above 7 (R206). -/
  | registerIndex (i : Nat)
  deriving DecidableEq, Repr

/-- The run status (10_state.md rule R33). HALTED and FAULTED are absorbing. -/
inductive RunStatus where
  | running
  | halted
  | faulted (cause : Cause)
  deriving DecidableEq, Repr

/-- The three independent condition flags (10_state.md rule R31). -/
structure Flags where
  /-- L -/
  less : Bool
  /-- G -/
  greater : Bool
  /-- E -/
  equal : Bool
  deriving DecidableEq, Repr

/-- Memory as its cells that differ from `Config.initMem`, by rising address. -/
abbrev Memory := List Host.Cell

/-- The canonical form: addresses strictly rising, all inside the 256 cells (R21), no cell holding what an unlisted address
reads as. -/
abbrev Memory.wf (m : Memory) : Prop :=
  m.Pairwise (fun c d => c.1 < d.1) ∧ ∀ c ∈ m, c.1 < Config.memCells ∧ c.2 ≠ Config.initMem

/-- The whole architectural state (10_state.md rule R20). -/
structure State where
  /-- M[0..255] (R21) -/
  mem : Memory
  /-- x[0..7] (R23) -/
  regs : Vector Byte 8
  /-- The address of the next instruction, or of the one being executed (R27). -/
  pc : Byte
  /-- The stack pointer, a register of its own, not R7 (R29). -/
  sp : Byte
  /-- L, G, E (R31) -/
  flags : Flags
  /-- R33 -/
  status : RunStatus
  /-- The values PRN has emitted, oldest first (R34). -/
  console : List Byte
  deriving DecidableEq, Repr

/-- The machine after reset and before loading (10_state.md rule R37). R0 to R6 and the memory cells are 0 by the spec's
D11 (PRESUMED, unsafe: logs 1 and 2). -/
def State.reset : State where
  mem := []
  regs := #v[Config.initReg, Config.initReg, Config.initReg, Config.initReg,
             Config.initReg, Config.initReg, Config.initReg, Config.spInit]
  pc := Config.pcInit
  sp := Config.spInit
  flags := ⟨false, false, false⟩
  status := .running
  console := []

end Sys2Proof.Machine
end

