-- ==== Sys2Proof/Machine/Ops.lean ====
section
/-! DEFINITION. The named operations over the state: memory interface (48_blocks_and_interfaces.md rule R187), register file
(R184), PC and SP control (R186), console port (R190), and taking a fault (60_exceptions.md rule R201). -/

namespace Sys2Proof.Machine

/-- The byte of cell `a`; a cell not listed holds `Config.initMem`. -/
def Memory.read : Memory → Nat → Byte
  | [], _ => Config.initMem
  | c :: m, a => if c.1 = a then c.2 else Memory.read m a

/-- Put a cell at its place by rising address. -/
def Memory.insert (c : Host.Cell) : Memory → Memory
  | [] => [c]
  | d :: m => if c.1 < d.1 then c :: d :: m else d :: Memory.insert c m

/-- The memory without cell `a`. -/
def Memory.erase (m : Memory) (a : Nat) : Memory := m.filter (fun c => c.1 != a)

/-- Cell `a` becomes `v`, in canonical form: the value an unlisted address reads as is not listed. -/
def Memory.write (m : Memory) (a : Nat) (v : Byte) : Memory :=
  if v = Config.initMem then m.erase a else Memory.insert (a, v) (m.erase a)

/-- `MemRead(a, 1)` (20_memory.md rule R52): always succeeds, changes nothing. -/
def State.memRead (s : State) (a : Byte) : Byte := s.mem.read a.toNat

/-- `MemWrite(a, 1, v)` (20_memory.md rule R53): cell `a` becomes `v` and nothing else changes. -/
def State.memWrite (s : State) (a v : Byte) : State := { s with mem := s.mem.write a.toNat v }

/-- `write(i, b[i])` for consecutive cells from `a` (48 rule R188). A byte that would lie past the last cell is not stored:
there is no such cell. -/
def State.storeBytes (s : State) (a : Nat) : List Byte → State
  | [] => s
  | b :: bs =>
    if a < Config.memCells then (s.memWrite (BitVec.ofNat 8 a) b).storeBytes (a + 1) bs else s

/-- `x[i]` (10_state.md rule R23). -/
def State.reg (s : State) (r : RegIdx) : Byte := s.regs[r]

/-- `x[i] <- v`. No register is hard-wired (R23). -/
def State.setReg (s : State) (r : RegIdx) (v : Byte) : State := { s with regs := s.regs.set r v }

/-- `pc <- v` (R186 `load`). -/
def State.setPc (s : State) (v : Byte) : State := { s with pc := v }

/-- `sp <- v` (R186). -/
def State.setSp (s : State) (v : Byte) : State := { s with sp := v }

/-- `emit(v)` (48 rule R190): appends to the console stream and always succeeds. -/
def State.emit (s : State) (v : Byte) : State := { s with console := s.console ++ [v] }

/-- `halt`: the run status becomes HALTED (R9, R33). -/
def State.halt (s : State) : State := { s with status := .halted }

/-- Taking a fault (60_exceptions.md rule R201): the run status becomes FAULTED(cause, value) and nothing else changes. There
is no handler and no return from a fault (R211, R212). -/
def State.raise (s : State) (c : Cause) : State := { s with status := .faulted c }

/-- `v` as an 8-bit address, or AddressRange(v) when it is outside 0 to 255 (the uniform policy of 40 rule R96). -/
def checkAddr (v : Int) : Except Cause Byte :=
  if 0 ≤ v ∧ v < Config.memCells then .ok (BitVec.ofInt 8 v) else .error (.addressRange v)

/-- `pc + n` as an address: the successor (`advance(n)` of R186, R96 (c)) or an operand's address (R96 (a), (b)). -/
def State.pcPlus (s : State) (n : Nat) : Except Cause Byte := checkAddr (s.pc.toNat + n)

/-- `returnAddress()` (R186): `pc + 2` for CALL, which must fit a cell (R96 (d)). -/
def State.returnAddress (s : State) : Except Cause Byte := checkAddr (s.pc.toNat + 2)

/-- `dec()` (R186): the new stack pointer of PUSH, AddressRange(-1) at 0 (R96 (e)). -/
def State.spDec (s : State) : Except Cause Byte := checkAddr ((s.sp.toNat : Int) - 1)

/-- `inc()` (R186): the new stack pointer of POP and RET, AddressRange(256) at 255 (R96 (f)). -/
def State.spInc (s : State) : Except Cause Byte := checkAddr (s.sp.toNat + 1)

/-- How every instruction ends: all its checks passed and it answers the state with its effects, or the first check that
failed decides the fault and nothing else has happened (00_scope.md rule R10, 60 rule R201). -/
def finish (s : State) : Except Cause State → Host.Outcome State Fault Refusal
  | .ok t => .next t
  | .error c => .next (s.raise c)

end Sys2Proof.Machine
end

