-- ==== Sys2Proof/Machine/Flags.lean ====
section
/-! DEFINITION. The condition-flag logic (43_alu.md rules R136 and R137, 48 rule R185). -/

namespace Sys2Proof.Machine

/-- The name of a condition flag (10_state.md rule R31). -/
inductive Flag where
  | less | greater | equal
  deriving DecidableEq, Repr

/-- Read one flag. -/
def Flags.get (f : Flags) : Flag → Bool
  | .less => f.less
  | .greater => f.greater
  | .equal => f.equal

/-- `set(L)`, `set(G)`, `set(E)` (R185): the named flag becomes 1 and the others keep their values. Nothing clears a flag
(R32, R136; the spec's D24, log 20). -/
def Flags.set (f : Flags) : Flag → Flags
  | .less => { f with less := true }
  | .greater => { f with greater := true }
  | .equal => { f with equal := true }

/-- The flag that comparing `left` with `right` sets, both as unsigned numbers (R137; the spec's D19, log 19). -/
def compareFlag (left right : Byte) : Flag :=
  if left.toNat > right.toNat then .greater
  else if left.toNat < right.toNat then .less
  else .equal

/-- The write port of the flag logic (R136). -/
def State.setFlag (s : State) (f : Flag) : State := { s with flags := s.flags.set f }

/-- `readE()` (R185), the one read port, used by JEQ and JNE. -/
def State.readE (s : State) : Bool := s.flags.equal

end Sys2Proof.Machine
end

