-- ==== Sys2Proof/Machine/Operands.lean ====
section
/-! DEFINITION. The operand forms: a register index, and the implicit pair of MUL and CMP (40_cycle_and_decode.md rule R97). -/

namespace Sys2Proof.Machine

/-- A register index, or RegisterIndex(i) when it is above 7. Never masked or wrapped (30 rule R72). -/
def checkIndex (i : Nat) : Except Cause RegIdx :=
  if h : i < 8 then .ok ⟨i, h⟩ else .error (.registerIndex i)

/-- Operand A as a register index: the whole byte (R72, R97). -/
def checkReg (a : Byte) : Except Cause RegIdx := checkIndex a.toNat

/-- The register that follows `r`, the implicit second operand of MUL and CMP: RegisterIndex(8) when `r` is 7 (R97). -/
def checkNext (r : RegIdx) : Except Cause RegIdx := checkIndex (r.val + 1)

end Sys2Proof.Machine
end

