-- ==== Sys2Proof/Machine/Alu.lean ====
section
/-! DEFINITION. The ALU sub-block (43_alu.md rules R130 to R138), driven by the decoder or directly, and MUL and CMP. -/

namespace Sys2Proof.Machine

/-- The tag that selects an ALU operation (43_alu.md rules R131, R132): the three defined ones, and any other name. -/
inductive AluTag where
  | add | mul | cmp
  /-- A tag outside {ADD, MUL, CMP}, by its name (R132). -/
  | other (name : String)
  deriving DecidableEq, Repr

/-- The tag of a name. -/
def AluTag.ofName (name : String) : AluTag :=
  if name = "ADD" then .add else if name = "MUL" then .mul else if name = "CMP" then .cmp else .other name

/-- The sum modulo 256, computed on integers and narrowed (R133, R134). -/
def aluSum (a b : Byte) : Byte := BitVec.ofNat 8 ((a.toNat + b.toNat) % 256)

/-- The product modulo 256, computed on integers and narrowed (R134, R135). -/
def aluProduct (a b : Byte) : Byte := BitVec.ofNat 8 ((a.toNat * b.toNat) % 256)

/-- `alu(tag, ia, ib)` with indices in range (R130, R183): ADD and MUL write `x[ia]`, CMP sets one flag, any other tag is
UnsupportedALUOp and nothing is written (R132). -/
def alu (tag : AluTag) (ia ib : RegIdx) (s : State) : Except Cause State :=
  match tag with
  | .add => .ok (s.setReg ia (aluSum (s.reg ia) (s.reg ib)))
  | .mul => .ok (s.setReg ia (aluProduct (s.reg ia) (s.reg ib)))
  | .cmp => .ok (s.setFlag (compareFlag (s.reg ia) (s.reg ib)))
  | .other name => .error (.unsupportedAluOp name)

/-- Whether the ALU defines the tag; checked before the indices (R138). -/
def checkTag : AluTag → Except Cause Unit
  | .other name => .error (.unsupportedAluOp name)
  | _ => .ok ()

/-- The checks of the ALU's own interface, the tag before the indices (R138), and then its effect. -/
def aluChecked (tag : AluTag) (ia ib : Nat) (s : State) : Except Cause State := do
  checkTag tag
  let a ← checkIndex ia
  let b ← checkIndex ib
  alu tag a b s

/-- The ALU driven at its own interface by a test bench (R132, R138, R183): the tag is checked first, then the indices.
No program reaches it: the decoder issues only MUL and CMP (R131). On a HALTED or FAULTED engine it changes nothing: the
status stays, since no event but reset leaves it (10_state.md rule R33); that registers and flags stay too is DEDUCED (log 29).
DESIGN CHOICE (log 30): of two bad indices, `ia` is the one reported. -/
def aluDirect (tag : AluTag) (ia ib : Nat) (s : State) : State :=
  match s.status with
  | .running =>
    match aluChecked tag ia ib s with
    | .ok t => t
    | .error c => s.raise c
  | .halted => s
  | .faulted _ => s

/-- MUL (R135): `x[r] <- (x[r] * x[r+1]) mod 256`. -/
def execMul (reg : Byte) (s : State) : Host.Outcome State Fault Refusal :=
  finish s do
    let r ← checkReg reg
    let q ← checkNext r
    let pc' ← s.pcPlus 3
    let t ← alu .mul r q s
    pure (t.setPc pc')

/-- CMP (R137): sets exactly one of G, L, E and clears none. -/
def execCmp (reg : Byte) (s : State) : Host.Outcome State Fault Refusal :=
  finish s do
    let r ← checkReg reg
    let q ← checkNext r
    let pc' ← s.pcPlus 3
    let t ← alu .cmp r q s
    pure (t.setPc pc')

end Sys2Proof.Machine
end

