-- ==== Sys2Proof/Machine/DataMove.lean ====
section
/-! DEFINITION. The data movement instruction LDI (42_data_movement.md rule R120). -/

namespace Sys2Proof.Machine

/-- LDI (R120): `x[r] <- imm8`, the whole byte unchanged. -/
def execLdi (reg imm : Byte) (s : State) : Host.Outcome State Fault Refusal :=
  finish s do
    let r ← checkReg reg
    let pc' ← s.pcPlus 3
    pure ((s.setReg r imm).setPc pc')

end Sys2Proof.Machine
end

