-- ==== Sys2Proof/Machine/Jumps.lean ====
section
/-! DEFINITION. The jump instructions JMP, JEQ and JNE (46_jumps.md rules R170 to R172), all register-indirect. -/

namespace Sys2Proof.Machine

/-- A jump to `x[r]` when `taken`, else to the successor. The operand is checked either way (the spec's D15, log 15); the
successor's address only when the jump is not taken (R171, R172). -/
def jumpIf (taken : Bool) (reg : Byte) (s : State) : Except Cause State := do
  let r ← checkReg reg
  if taken then
    pure (s.setPc (s.reg r))
  else
    let pc' ← s.pcPlus 2
    pure (s.setPc pc')

/-- JMP (R170). -/
def execJmp (reg : Byte) (s : State) : Host.Outcome State Fault Refusal := finish s (jumpIf true reg s)

/-- JEQ (R171): taken when `E` is 1. -/
def execJeq (reg : Byte) (s : State) : Host.Outcome State Fault Refusal := finish s (jumpIf s.readE reg s)

/-- JNE (R172): taken when `E` is 0. -/
def execJne (reg : Byte) (s : State) : Host.Outcome State Fault Refusal := finish s (jumpIf (!s.readE) reg s)

end Sys2Proof.Machine
end

