-- ==== Sys2Proof/Machine/Stack.lean ====
section
/-! DEFINITION. The stack instructions PUSH and POP (44_stack.md rules R150 and R151). They use `sp`, never R7 as an address. -/

namespace Sys2Proof.Machine

/-- The self-decrement of PUSH, modulo 256 (R150; 0 becomes 255 by the spec's D9, log 10). -/
def pushValue (v : Byte) : Byte := BitVec.ofInt 8 (((v.toNat : Int) - 1) % 256)

/-- PUSH (R150): `sp` down, then `x[r]` down, then the new `x[r]` stored at the new `sp`. -/
def execPush (reg : Byte) (s : State) : Host.Outcome State Fault Refusal :=
  finish s do
    let r ← checkReg reg
    let sp' ← s.spDec
    let pc' ← s.pcPlus 2
    let v := pushValue (s.reg r)
    pure ((((s.setSp sp').setReg r v).memWrite sp' v).setPc pc')

/-- POP (R151): `x[r]` takes the byte at the old `sp`, and `sp` goes up. -/
def execPop (reg : Byte) (s : State) : Host.Outcome State Fault Refusal :=
  finish s do
    let r ← checkReg reg
    let sp' ← s.spInc
    let pc' ← s.pcPlus 2
    pure (((s.setReg r (s.memRead s.sp)).setSp sp').setPc pc')

end Sys2Proof.Machine
end

