-- ==== Sys2Proof/Machine/Subroutine.lean ====
section
/-! DEFINITION. The subroutine instructions CALL and RET (45_subroutine.md rules R160 and R161). They do not balance `sp`. -/

namespace Sys2Proof.Machine

/-- CALL (R160): stores `pc + 2` at the unchanged `sp` and jumps to `x[r]`. -/
def execCall (reg : Byte) (s : State) : Host.Outcome State Fault Refusal :=
  finish s do
    let r ← checkReg reg
    let ra ← s.returnAddress
    pure ((s.memWrite s.sp ra).setPc (s.reg r))

/-- RET (R161): jumps to the byte at the old `sp`, and `sp` goes up. -/
def execRet (s : State) : Host.Outcome State Fault Refusal :=
  finish s do
    let sp' ← s.spInc
    pure ((s.setSp sp').setPc (s.memRead s.sp))

end Sys2Proof.Machine
end

