-- ==== Sys2Proof/Machine/System.lean ====
section
/-! DEFINITION. The system instructions HLT and PRN (41_system.md rules R110 and R111). -/

namespace Sys2Proof.Machine

/-- HLT (R110): the status becomes HALTED; `pc` keeps the address of the HLT byte (the spec's D12, log 12). -/
def execHlt (s : State) : Host.Outcome State Fault Refusal := finish s (.ok s.halt)

/-- PRN (R111): appends `x[r]` to the console stream. -/
def execPrn (reg : Byte) (s : State) : Host.Outcome State Fault Refusal :=
  finish s do
    let r ← checkReg reg
    let pc' ← s.pcPlus 2
    pure ((s.emit (s.reg r)).setPc pc')

end Sys2Proof.Machine
end

