-- ==== Sys2Proof/Syntax.lean ====
section
/-! DEFINITION. The instructions of the engine (00_scope.md rule R2, 30_encoding.md rules R70 to R74) as syntax. -/

namespace Sys2Proof

/-- The twelve operation kinds the decoder tells apart (40_cycle_and_decode.md rule R93, 48 rule R182). -/
inductive Op where
  | hlt | ldi | prn | mul | push | pop | call | ret | cmp | jmp | jeq | jne
  deriving DecidableEq, Repr

/-- One instruction. `reg` is operand A, the whole byte as the program holds it (30_encoding.md rule R72): a byte above 7 is
a legal thing to fetch, and executing it raises RegisterIndex (40 rule R97). MUL and CMP have no field for their third
byte, which is never read (30 rule R77). -/
inductive Instr where
  /-- R110 -/
  | hlt
  /-- R120 -/
  | ldi (reg imm : Byte)
  /-- R111 -/
  | prn (reg : Byte)
  /-- R135 -/
  | mul (reg : Byte)
  /-- R150 -/
  | push (reg : Byte)
  /-- R151 -/
  | pop (reg : Byte)
  /-- R160 -/
  | call (reg : Byte)
  /-- R161 -/
  | ret
  /-- R137 -/
  | cmp (reg : Byte)
  /-- R170 -/
  | jmp (reg : Byte)
  /-- R171 -/
  | jeq (reg : Byte)
  /-- R172 -/
  | jne (reg : Byte)
  deriving DecidableEq, Repr

/-- The operation kind of an instruction. -/
def Instr.op : Instr → Op
  | .hlt => .hlt
  | .ldi _ _ => .ldi
  | .prn _ => .prn
  | .mul _ => .mul
  | .push _ => .push
  | .pop _ => .pop
  | .call _ => .call
  | .ret => .ret
  | .cmp _ => .cmp
  | .jmp _ => .jmp
  | .jeq _ => .jeq
  | .jne _ => .jne

/-- Operand A, the byte at `pc + 1`: a register index in every instruction that has one (R92). -/
def Instr.operandA : Instr → Option Byte
  | .hlt => none
  | .ldi r _ => some r
  | .prn r => some r
  | .mul r => some r
  | .push r => some r
  | .pop r => some r
  | .call r => some r
  | .ret => none
  | .cmp r => some r
  | .jmp r => some r
  | .jeq r => some r
  | .jne r => some r

end Sys2Proof
end

