-- ==== Sys2Proof/WellFormed.lean ====
section
/-! DEFINITION. Well-formed instructions: the operand values that 30_encoding.md rule R71 calls legal. -/

namespace Sys2Proof

/-- `reg` is 0 to 7 (formats F2 and F3 of R71). -/
def regOk (r : Byte) : Bool := decide (r.toNat ≤ 7)

/-- `reg` is 0 to 6, so that the pair register `reg + 1` exists (MUL and CMP in R71). -/
def pairOk (r : Byte) : Bool := decide (r.toNat ≤ 6)

/-- The instruction's operand is one the encoding calls legal. An ill-formed instruction can still be fetched; it faults
with RegisterIndex when it executes (40_cycle_and_decode.md rule R97). -/
def Instr.wf : Instr → Bool
  | .hlt => true
  | .ldi r _ => regOk r
  | .prn r => regOk r
  | .mul r => pairOk r
  | .push r => regOk r
  | .pop r => regOk r
  | .call r => regOk r
  | .ret => true
  | .cmp r => pairOk r
  | .jmp r => regOk r
  | .jeq r => regOk r
  | .jne r => regOk r

end Sys2Proof
end

