-- ==== Sys2Proof/Decode.lean ====
section
/-! DEFINITION. The decoder (40_cycle_and_decode.md rules R92 to R95, 48 rule R182), total on any bytes, and the encoder. -/

namespace Sys2Proof

/-- The twelve operation kinds, in the order of 30_encoding.md rule R74. -/
def Op.all : List Op := [.hlt, .ldi, .prn, .mul, .push, .pop, .call, .ret, .cmp, .jmp, .jeq, .jne]

/-- OPCODE_TABLE: the opcode byte of each operation (R74). PRESUMED: the values are the spec's D1, the LS-8's; unsafe, log 3. -/
def Op.opcode : Op → Byte
  | .hlt => 0x01
  | .ldi => 0x82
  | .prn => 0x47
  | .mul => 0xA2
  | .push => 0x45
  | .pop => 0x46
  | .call => 0x50
  | .ret => 0x11
  | .cmp => 0xA7
  | .jmp => 0x54
  | .jeq => 0x55
  | .jne => 0x56

/-- The instruction length in bytes, a function of the operation alone (R71, R73, R182). -/
def Op.length : Op → Nat
  | .hlt => 1
  | .ldi => 3
  | .prn => 2
  | .mul => 3
  | .push => 2
  | .pop => 2
  | .call => 2
  | .ret => 1
  | .cmp => 3
  | .jmp => 2
  | .jeq => 2
  | .jne => 2

/-- Whether the operation reads operand A at `pc + 1` (R95, R182). -/
def Op.readsA (k : Op) : Bool := decide (k ≠ .hlt ∧ k ≠ .ret)

/-- Whether the operation reads operand B at `pc + 2`: LDI only (R95, R182). -/
def Op.readsB (k : Op) : Bool := decide (k = .ldi)

/-- Whether operand A is a register index: whenever it is read (R92, R182). -/
def Op.regA (k : Op) : Bool := k.readsA

/-- Whether the operation uses the implicit pair `a, a + 1` (R93, R182). -/
def Op.pair (k : Op) : Bool := decide (k = .mul ∨ k = .cmp)

/-- Opcode dispatch: all eight bits are compared with the twelve values (R93, the spec's D2); none is an unrecognised
opcode (R76, R94). -/
def dispatch (b : Byte) : Option Op := Op.all.find? (fun k => k.opcode == b)

/-- The length in bytes of an instruction. -/
def Instr.length (i : Instr) : Nat := i.op.length

/-- Why the decoder rejects the bytes it is given. -/
inductive DecodeError where
  /-- The opcode byte is none of the twelve (R94). -/
  | illegalOpcode (op : Byte)
  /-- The operation needs operand A and there is no byte after the opcode (R96 (a)). -/
  | operandAMissing
  /-- LDI needs operand B and there is no byte after operand A (R96 (b)). -/
  | operandBMissing
  deriving DecidableEq, Repr

/-- An instruction whose one operand is operand A. -/
def decodeA (mk : Byte → Instr) : List Byte → Except DecodeError Instr
  | [] => .error .operandAMissing
  | a :: _ => .ok (mk a)

/-- An instruction that reads operand A and then operand B. -/
def decodeAB (mk : Byte → Byte → Instr) : List Byte → Except DecodeError Instr
  | [] => .error .operandAMissing
  | [_] => .error .operandBMissing
  | a :: b :: _ => .ok (mk a b)

/-- Decode the opcode byte `op`, followed in memory by the bytes `rest` (as many as there are). The opcode is looked at
first, then operand A, then operand B, and only the operand bytes the operation needs (R78, R92, R95). -/
def decode (op : Byte) (rest : List Byte) : Except DecodeError Instr :=
  match dispatch op with
  | none => .error (.illegalOpcode op)
  | some .hlt => .ok .hlt
  | some .ldi => decodeAB .ldi rest
  | some .prn => decodeA .prn rest
  | some .mul => decodeA .mul rest
  | some .push => decodeA .push rest
  | some .pop => decodeA .pop rest
  | some .call => decodeA .call rest
  | some .ret => .ok .ret
  | some .cmp => decodeA .cmp rest
  | some .jmp => decodeA .jmp rest
  | some .jeq => decodeA .jeq rest
  | some .jne => decodeA .jne rest

/-- The instruction at the front of a list of bytes; none where the decoder refuses or there is no byte. -/
def decodeBytes : List Byte → Option Instr
  | [] => none
  | op :: rest => (decode op rest).toOption

/-- The bytes of an instruction at ascending addresses (R70, R71). The unread third byte of MUL and CMP is `reg + 1`, as
the spec's assembler emits it (R77; the spec's D14, log 14). -/
def encode (i : Instr) : List Byte :=
  match i with
  | .hlt => [i.op.opcode]
  | .ldi r v => [i.op.opcode, r, v]
  | .prn r => [i.op.opcode, r]
  | .mul r => [i.op.opcode, r, r + 1]
  | .push r => [i.op.opcode, r]
  | .pop r => [i.op.opcode, r]
  | .call r => [i.op.opcode, r]
  | .ret => [i.op.opcode]
  | .cmp r => [i.op.opcode, r, r + 1]
  | .jmp r => [i.op.opcode, r]
  | .jeq r => [i.op.opcode, r]
  | .jne r => [i.op.opcode, r]

/-- The three bytes, first byte first, of an instruction whose `nbits` low bits are `w` and whose other bits are 0. -/
def tableWordBytes (nbits w : Nat) : List Byte :=
  let v := w % 2 ^ nbits
  [BitVec.ofNat 8 v, BitVec.ofNat 8 (v / 256), BitVec.ofNat 8 (v / 65536)]

/-- The instruction the decoder reads from a word of the opcode table (bit 0 the least significant bit of the first byte). -/
def decodeTableWord (nbits w : Nat) : Option Instr := decodeBytes (tableWordBytes nbits w)

end Sys2Proof
end

