-- ==== Sys2Proof/Machine/Fetch.lean ====
section
/-! DEFINITION. Fetching the instruction at `pc` (40_cycle_and_decode.md rules R92 and R94 to R96). -/

namespace Sys2Proof.Machine

/-- The byte at `pc + n`, where there is such a cell. -/
def State.byteAfterPc (s : State) (n : Nat) : Option Byte :=
  if s.pc.toNat + n < Config.memCells then some (s.memRead (s.pc + BitVec.ofNat 8 n)) else none

/-- The bytes that stand after the opcode and could be operands: those of `pc + 1` and `pc + 2` that exist. Reading has no
effect (20_memory.md rule R55), so offering the decoder a byte it does not take is not observable (log 23). -/
def State.operandBytes (s : State) : List Byte := [s.byteAfterPc 1, s.byteAfterPc 2].reduceOption

/-- The fault for bytes the decoder rejects: IllegalOpcode (R94), or AddressRange of the missing operand's address
(R96 (a) and (b)). -/
def State.decodeCause (s : State) : DecodeError → Cause
  | .illegalOpcode op => .illegalOpcode op
  | .operandAMissing => .addressRange (s.pc.toNat + 1)
  | .operandBMissing => .addressRange (s.pc.toNat + 2)

/-- Fetch and decode: every byte is read from memory at this moment (20_memory.md rule R61). -/
def State.fetch (s : State) : Except Cause Instr :=
  match decode (s.memRead s.pc) s.operandBytes with
  | .ok i => .ok i
  | .error e => .error (s.decodeCause e)

end Sys2Proof.Machine
end

