-- ==== Sys2Proof/Machine/Step.lean ====
section
/-! DEFINITION. One step of the sequencer (40_cycle_and_decode.md rules R90 to R92). -/

namespace Sys2Proof.Machine

/-- One step (R91). RUNNING: fetch, decode and execute one instruction, or take the fault of the first check that failed.
HALTED and FAULTED: no step is performed and no state changes (R90), so the state is its own next state. -/
def step (s : State) : Host.Outcome State Fault Refusal :=
  match s.status with
  | .running =>
    match s.fetch with
    | .ok i => exec i s
    | .error c => .next (s.raise c)
  | .halted => .next s
  | .faulted _ => .next s

/-- `s` with the instruction of a table word stored at `pc`, where the next step fetches, as the loader would have left it
there. A step fetches only while RUNNING, so the status is RUNNING (log 22). Bytes past address 255 have no cell. -/
def State.withFetchWord (s : State) (nbits w : Nat) : State :=
  { s.storeBytes s.pc.toNat (tableWordBytes nbits w) with status := .running }

end Sys2Proof.Machine
end

