-- ==== Sys2Proof/Machine/Loader.lean ====
section
/-! DEFINITION. The loader port and the program file (30_encoding.md rule R81, 48 rules R188 and R189, 60 rule R207, 70 rule R230). -/

namespace Sys2Proof.Machine

/-- Why a load fails (60_exceptions.md rule R207). Not an engine fault: the engine is never started. -/
inductive LoadError where
  /-- The file does not exist. -/
  | missingFile
  /-- A line that is not a valid binary literal, with its number counted from 1. -/
  | badLine (number : Nat)
  /-- More bytes than memory has cells (R188; the spec's D18, log 18). -/
  | tooLong (bytes : Nat)
  deriving DecidableEq, Repr

/-- The loader port (R188): the bytes go to addresses 0, 1, 2, … in order and nothing else is written. -/
def load (image : List Byte) (s : State) : Except LoadError State :=
  if image.length ≤ Config.memCells then .ok (s.storeBytes Config.loadBase image)
  else .error (.tooLong image.length)

/-- White space that may stand around the digits of a line (DEDUCED from the example line of R81, log 25). -/
def isBlankChar (c : Char) : Bool := c == ' ' || c == '\t' || c == '\r'

/-- A list of characters without the white space at its two ends. -/
def trimChars (cs : List Char) : List Char :=
  ((cs.dropWhile isBlankChar).reverse.dropWhile isBlankChar).reverse

/-- The value of one binary digit. -/
def binDigit (c : Char) : Option Nat := if c = '0' then some 0 else if c = '1' then some 1 else none

/-- Exactly eight binary digits, most significant first (R81). -/
def parseByte (cs : List Char) : Option Byte :=
  if cs.length = 8 then
    (cs.mapM binDigit).map (fun ds => BitVec.ofNat 8 (ds.foldl (fun n d => 2 * n + d) 0))
  else none

/-- Split at a separator; the pieces in order. -/
def splitChars (isSep : Char → Bool) : List Char → List (List Char)
  | [] => [[]]
  | c :: cs =>
    match splitChars isSep cs with
    | [] => [[c]]
    | p :: ps => if isSep c then [] :: p :: ps else (c :: p) :: ps

/-- The bytes of the lines from number `n` on. A line's text up to `#` counts; a blank line yields no byte and does not
advance the address (R81). -/
def parseLines (n : Nat) : List (List Char) → Except LoadError (List Byte)
  | [] => .ok []
  | line :: lines =>
    let body := trimChars (line.takeWhile (· ≠ '#'))
    if body = [] then parseLines (n + 1) lines
    else match parseByte body with
      | none => .error (.badLine n)
      | some b => (parseLines (n + 1) lines).map (b :: ·)

/-- A program file's text as its bytes (R81). -/
def parseProgram (text : String) : Except LoadError (List Byte) := parseLines 1 (splitChars (· == '\n') text.toList)

/-- Reset and load (R189, R230): the state a run starts from. Start itself sets nothing (R189). -/
def boot (image : List Byte) : Except LoadError State := load image State.reset

/-- Reset and load from a program file, none when the file is missing (R207). -/
def bootFile (file : Option String) : Except LoadError State :=
  match file with
  | none => .error .missingFile
  | some text => (parseProgram text).bind boot

end Sys2Proof.Machine
end

