-- ==== Sys2Proof/Machine/Assembler.lean ====
section
/-! DEFINITION. The assembler spelling of 30_encoding.md rule R80: not part of the hardware, but the form the spec's programs have. -/

namespace Sys2Proof.Machine

/-- The mnemonic (R74). -/
def mnemonic : Op → String
  | .hlt => "HLT"
  | .ldi => "LDI"
  | .prn => "PRN"
  | .mul => "MUL"
  | .push => "PUSH"
  | .pop => "POP"
  | .call => "CALL"
  | .ret => "RET"
  | .cmp => "CMP"
  | .jmp => "JMP"
  | .jeq => "JEQ"
  | .jne => "JNE"

/-- The value of a digit in base 10 or 16. -/
def digitValue (c : Char) : Nat :=
  if '0' ≤ c ∧ c ≤ '9' then c.toNat - '0'.toNat
  else if 'A' ≤ c ∧ c ≤ 'F' then c.toNat - 'A'.toNat + 10
  else if 'a' ≤ c ∧ c ≤ 'f' then c.toNat - 'a'.toNat + 10
  else 16

/-- A numeral in the given base, at least one digit. -/
def parseNumeral (base : Nat) (cs : List Char) : Option Nat :=
  if cs ≠ [] ∧ cs.all (fun c => digitValue c < base) then some (cs.foldl (fun n c => base * n + digitValue c) 0) else none

/-- An immediate: decimal, or hexadecimal after `0x`, at most 255 (R80). -/
def parseImm (cs : List Char) : Option Byte :=
  let n := match cs with
    | '0' :: 'x' :: ds => parseNumeral 16 ds
    | ds => parseNumeral 10 ds
  n.bind fun v => if v < 256 then some (BitVec.ofNat 8 v) else none

/-- A register `R0` to `R7` (R80). -/
def parseReg : List Char → Option Byte
  | ['R', d] => if digitValue d < 8 then some (BitVec.ofNat 8 (digitValue d)) else none
  | _ => none

/-- An instruction whose operand is one register. -/
def oneReg (mk : Byte → Instr) : List (List Char) → Option (List Byte)
  | [r] => (parseReg r).map (fun a => encode (mk a))
  | _ => none

/-- An instruction without operands. -/
def noOperand (i : Instr) : List (List Char) → Option (List Byte)
  | [] => some (encode i)
  | _ => none

/-- The bytes of one instruction, by mnemonic and operands (R80). MUL and CMP have one operand (R80, R77). -/
def assembleOp (k : Op) (operands : List (List Char)) : Option (List Byte) :=
  match k with
  | .hlt => noOperand .hlt operands
  | .ret => noOperand .ret operands
  | .ldi =>
    match operands with
    | [r, v] => do
      let a ← parseReg r
      let b ← parseImm v
      pure (encode (.ldi a b))
    | _ => none
  | .prn => oneReg .prn operands
  | .mul => oneReg .mul operands
  | .push => oneReg .push operands
  | .pop => oneReg .pop operands
  | .call => oneReg .call operands
  | .cmp => oneReg .cmp operands
  | .jmp => oneReg .jmp operands
  | .jeq => oneReg .jeq operands
  | .jne => oneReg .jne operands

/-- The bytes of one statement: a mnemonic, a space and the operands separated by commas; `.byte v`; or nothing (R80). -/
def assembleStatement (cs : List Char) : Option (List Byte) :=
  let body := trimChars cs
  let name := body.takeWhile (fun c => !isBlankChar c)
  let rest := trimChars (body.drop name.length)
  let operands := if rest = [] then [] else (splitChars (· == ',') rest).map trimChars
  if name = [] then some []
  else if name = ".byte".toList then
    match operands with
    | [v] => (parseImm v).map (fun b => [b])
    | _ => none
  else (Op.all.find? (fun k => (mnemonic k).toList == name)).bind (fun k => assembleOp k operands)

/-- The image of a program text: statements one a line or separated by semicolons, from address 0 (R80; log 26). -/
def assemble (text : String) : Option (List Byte) :=
  ((splitChars (fun c => c == '\n' || c == ';') text.toList).mapM assembleStatement).map List.flatten

/-- A register as the assembler spells it (R80). -/
def spellReg (r : Byte) : String := "R" ++ toString r.toNat

/-- An instruction as the assembler spells it (R80). -/
def spell (i : Instr) : String :=
  mnemonic i.op ++
    match i with
    | .hlt => ""
    | .ldi r v => " " ++ spellReg r ++ "," ++ toString v.toNat
    | .prn r => " " ++ spellReg r
    | .mul r => " " ++ spellReg r
    | .push r => " " ++ spellReg r
    | .pop r => " " ++ spellReg r
    | .call r => " " ++ spellReg r
    | .ret => ""
    | .cmp r => " " ++ spellReg r
    | .jmp r => " " ++ spellReg r
    | .jeq r => " " ++ spellReg r
    | .jne r => " " ++ spellReg r

end Sys2Proof.Machine
end

