-- ==== Sys2Proof/Machine/HostPort.lean ====
section
/-! DEFINITION. What the host sees of the engine: console text, status outputs and inspection (48 rules R190 to R193). -/

namespace Sys2Proof.Machine

/-- The text of one emitted value: `-- ` and the decimal numeral (41 rule R111, 48 rule R190). The line's terminator is the
host's (the spec's D17, log 17). -/
def renderLine (v : Byte) : String := "-- " ++ toString v.toNat

/-- The console text, one line per emitted value, in execution order (R190). -/
def State.consoleText (s : State) : List String := s.console.map renderLine

/-- The cause codes (60_exceptions.md rule R202). -/
def Cause.code : Cause → Nat
  | .illegalOpcode _ => 1
  | .unsupportedAluOp _ => 2
  | .addressRange _ => 3
  | .registerIndex _ => 4

/-- The value recorded with a cause (R202): a number, or the ALU tag. -/
inductive RecordedValue where
  | number (v : Int)
  | tag (name : String)
  deriving DecidableEq, Repr

/-- The value recorded with a cause (R202). -/
def Cause.value : Cause → RecordedValue
  | .illegalOpcode op => .number op.toNat
  | .unsupportedAluOp t => .tag t
  | .addressRange v => .number v
  | .registerIndex i => .number i

/-- The `halted` status output (R191). -/
def State.haltedOutput (s : State) : Bool :=
  match s.status with
  | .halted => true
  | .running => false
  | .faulted _ => false

/-- The `faulted` status output with the cause code and the recorded value (R191). -/
def State.faultedOutput (s : State) : Option (Nat × RecordedValue) :=
  match s.status with
  | .faulted c => some (c.code, c.value)
  | .running => none
  | .halted => none

/-- What the host may observe (R192). -/
structure HostView where
  console : List String
  halted : Bool
  faulted : Option (Nat × RecordedValue)
  /-- Memory, registers, `pc`, `sp` and flags: only after HALTED or FAULTED. -/
  inspection : Option State
  deriving DecidableEq, Repr

/-- What the host may observe of a state (R192; the spec's D23, log 27). -/
def hostView (s : State) : HostView where
  console := s.consoleText
  halted := s.haltedOutput
  faulted := s.faultedOutput
  inspection := match s.status with
    | .running => none
    | .halted => some s
    | .faulted _ => some s

end Sys2Proof.Machine
end

