-- ==== Sys2Proof/Safety.lean ====
section
/-! DEFINITION. Runs, what counts as their end, the invariants, and the terms in which the claims are stated. -/

namespace Sys2Proof.Machine

/-- The state after one step. `step` always answers a next state; the other outcomes leave the state. -/
def State.after (s : State) : State :=
  match step s with
  | .next t => t
  | .fault _ => s
  | .refused _ => s

/-- The state after `n` steps. -/
def runFor : Nat → State → State
  | 0, s => s
  | n + 1, s => runFor n s.after

/-- A successful end (40_cycle_and_decode.md rule R100): the run reaches HALTED. -/
def Halts (s : State) : Prop := ∃ n, (runFor n s).status = .halted

/-- An unsuccessful end (R100): the run reaches FAULTED, which is never a success (R33, R201). -/
def Faults (s : State) : Prop := ∃ n c, (runFor n s).status = .faulted c

/-- A safe run: no step of it faults. -/
def Safe (s : State) : Prop := ¬ Faults s

/-- The invariant of memory: its list is in canonical form and inside the 256 cells. -/
def State.Inv (s : State) : Prop := s.mem.wf

/-- What a program's fault can record (60_exceptions.md rule R202): an unrecognised opcode byte; -1, 256 or 257; an index 8
to 255; never an unsupported ALU tag. -/
def Cause.Recordable : Cause → Prop
  | .illegalOpcode op => dispatch op = none
  | .unsupportedAluOp _ => False
  | .addressRange v => v = -1 ∨ v = 256 ∨ v = 257
  | .registerIndex i => 8 ≤ i ∧ i ≤ 255

/-- The run status, when FAULTED, records a cause and a value that R202 lists for programs. -/
def State.StatusLegal (s : State) : Prop := ∀ c, s.status = .faulted c → c.Recordable

/-- The operand byte that names register `r`. -/
def regByte (r : RegIdx) : Byte := BitVec.ofNat 8 r.val

/-- The register an instruction writes, by its operand byte (10_state.md rule R26). -/
def destReg : Instr → Option Byte
  | .hlt => none
  | .ldi r _ => some r
  | .prn _ => none
  | .mul r => some r
  | .push r => some r
  | .pop r => some r
  | .call _ => none
  | .ret => none
  | .cmp _ => none
  | .jmp _ => none
  | .jeq _ => none
  | .jne _ => none

/-- The registers an instruction reads, by number, where `e` is the flag E (10_state.md rule R26): JEQ and JNE read theirs only
when the jump is taken. -/
def readRegs (i : Instr) (e : Bool) : List Nat :=
  match i with
  | .hlt => []
  | .ldi _ _ => []
  | .prn r => [r.toNat]
  | .mul r => [r.toNat, r.toNat + 1]
  | .push r => [r.toNat]
  | .pop _ => []
  | .call r => [r.toNat]
  | .ret => []
  | .cmp r => [r.toNat, r.toNat + 1]
  | .jmp r => [r.toNat]
  | .jeq r => if e then [r.toNat] else []
  | .jne r => if e then [] else [r.toNat]

/-- The value of the register an operand byte names; none for a byte above 7. -/
def State.regOf (s : State) (a : Byte) : Option Byte := if h : a.toNat < 8 then some (s.reg ⟨a.toNat, h⟩) else none

/-- The target that replaces the program counter (40 rule R99): none where the instruction advances. -/
def jumpTarget (i : Instr) (s : State) : Option Byte :=
  match i with
  | .hlt => none
  | .ldi _ _ => none
  | .prn _ => none
  | .mul _ => none
  | .push _ => none
  | .pop _ => none
  | .call r => s.regOf r
  | .ret => some (s.memRead s.sp)
  | .cmp _ => none
  | .jmp r => s.regOf r
  | .jeq r => if s.flags.equal then s.regOf r else none
  | .jne r => if s.flags.equal then none else s.regOf r

/-- Whether an operation advances the program counter in state `s` (40 rule R96 (c)). -/
def advances (s : State) : Op → Bool
  | .hlt => false
  | .ldi => true
  | .prn => true
  | .mul => true
  | .push => true
  | .pop => true
  | .call => false
  | .ret => false
  | .cmp => true
  | .jmp => false
  | .jeq => !s.flags.equal
  | .jne => s.flags.equal

/-- The checks (1) to (8) of 40_cycle_and_decode.md rule R98 in their order, each with the cause it raises (R94, R96, R97),
read off the rules' own conditions and not off the meanings. -/
def faultTable (s : State) : List (Bool × Cause) :=
  match dispatch (s.memRead s.pc) with
  | none => [(true, .illegalOpcode (s.memRead s.pc))]
  | some k =>
    let pc := s.pc.toNat
    let a := (s.memRead (s.pc + 1)).toNat
    [ (k.readsA && decide (pc + 1 > 255), .addressRange (pc + 1)),
      (k.readsB && decide (pc + 2 > 255), .addressRange (pc + 2)),
      (k.regA && decide (a > 7), .registerIndex a),
      (k.pair && decide (a + 1 > 7), .registerIndex (a + 1)),
      (decide (k = .push ∧ s.sp.toNat = 0), .addressRange (-1)),
      (decide ((k = .pop ∨ k = .ret) ∧ s.sp.toNat = 255), .addressRange 256),
      (decide (k = .call ∧ pc + 2 > 255), .addressRange (pc + 2)),
      (advances s k && decide (pc + k.length > 255), .addressRange (pc + k.length)) ]

/-- The first check that fails (R98). -/
def firstFault (s : State) : Option Cause := ((faultTable s).find? (·.1)).map (·.2)

end Sys2Proof.Machine
end

