-- ==== Sys2Proof/Certificates/Slice0/Obligations.lean ====
section
/-! DEFINITION. The statements for the provers, each with the rules of spec/ it rests on. -/

open Sys2Proof Sys2Proof.Machine

/-! ## Reset, fetch and the step -/

/-- 10_state.md section 9 and 70 section 1: what reset leaves. The zeros of R0 to R6 and of memory are the spec's D11
(PRESUMED, logs 1 and 2); the rest the document gives. -/
def Obligations.ResetLeavesTheListedValues : Prop :=
  State.reset.pc = 0 ∧ State.reset.sp = 0xF4 ∧ State.reset.reg 7 = 0xF4 ∧ State.reset.sp = State.reset.reg Config.spReg ∧
  State.reset.flags = ⟨false, false, false⟩ ∧ State.reset.status = .running ∧ State.reset.console = [] ∧
  (∀ r : Fin 7, State.reset.reg r.castSucc = 0) ∧ (∀ a : Byte, State.reset.memRead a = 0)

/-- 40 section 1: while RUNNING, when the bytes at the program counter decode to an instruction, the step is its `exec`. The
engine adds nothing around it: each instruction moves `pc` itself (R90). -/
def Obligations.StepRunsTheDecodedInstruction : Prop :=
  ∀ (s : State) (i : Instr), s.status = .running → decode (s.memRead s.pc) s.operandBytes = .ok i → step s = exec i s

/-- 40 section 1, 30 section 1: while RUNNING, when the bytes of `encode i` stand in memory from the program counter on, the
step is `exec i`. -/
def Obligations.StepRunsTheInstructionEncodedAtPc : Prop :=
  ∀ (s : State) (i : Instr), s.status = .running →
    (∀ k b, (encode i)[k]? = some b → s.pc.toNat + k ≤ 255 ∧ s.memRead (s.pc + BitVec.ofNat 8 k) = b) →
    step s = exec i s

/-- 40 section 1, the loop. (1) In HALTED and FAULTED no state changes. (2) While RUNNING the opcode byte at `pc` selects the
operation, which reads only the operand bytes it needs (that MUL and CMP do not need a third byte is the spec's D14, log 14).
(3) The operation itself either advances `pc` by its length or sets it to its jump target. (4) The loop ends in HALTED exactly
at a step of the halt instruction. -/
def Obligations.SequencerLoop : Prop :=
  ∀ s : State,
    (s.status ≠ .running → step s = .next s) ∧
    (s.status = .running → ∀ i : Instr, s.memRead s.pc = i.op.opcode →
      (∀ a, i.operandA = some a → s.pc.toNat + 1 ≤ 255 ∧ s.memRead (s.pc + 1) = a) →
      (∀ r v, i = .ldi r v → s.pc.toNat + 2 ≤ 255 ∧ s.memRead (s.pc + 2) = v) →
      step s = exec i s ∧
      ∀ t, exec i s = .next t → t.status = .running →
        (∀ v, jumpTarget i s = some v → t.pc = v) ∧
        (jumpTarget i s = none → t.pc.toNat = s.pc.toNat + i.length)) ∧
    (s.status = .running → ∃ t, step s = .next t ∧ (t.status = .halted ↔ s.memRead s.pc = Op.hlt.opcode))

/-- 40 section 1 (the spec's D6 and D22): a step from RUNNING ends in exactly one of three outcomes: RUNNING, a halt that
changes only the status (only at the HLT byte), or a fault that changes only the status. A step is total. -/
def Obligations.StepHasThreeOutcomes : Prop :=
  ∀ s : State, ∃ t, step s = .next t ∧
    (s.status = .running →
      t.status = .running ∨
      (t = { s with status := .halted } ∧ s.memRead s.pc = 0x01) ∨
      (∃ c, t = { s with status := .faulted c }))

/-! ## What each instruction does: its completion, with the whole next state -/

/-- 41 section on HLT: HLT always completes; the status becomes HALTED and nothing else changes. That `pc` stays is the
spec's D12 (log 12). -/
def Obligations.HltCompletes : Prop :=
  ∀ s : State, exec .hlt s = .next { s with status := .halted }

/-- 41 section on PRN: the value of the register is appended to the console stream (the spec's D17, log 17). -/
def Obligations.PrnCompletes : Prop :=
  ∀ (s : State) (r : RegIdx), s.pc.toNat + 2 ≤ 255 →
    exec (.prn (regByte r)) s = .next { s with console := s.console ++ [s.reg r], pc := s.pc + 2 }

/-- 42 section on LDI: the register takes the immediate byte unchanged. -/
def Obligations.LdiCompletes : Prop :=
  ∀ (s : State) (r : RegIdx) (v : Byte), s.pc.toNat + 3 ≤ 255 →
    exec (.ldi (regByte r) v) s = .next { s with regs := s.regs.set r v, pc := s.pc + 3 }

/-- 43 section 2: MUL puts the product modulo 256 in the first register of the pair (the third byte is not read: the spec's
D14, log 14). -/
def Obligations.MulCompletes : Prop :=
  ∀ (s : State) (r : Fin 7), s.pc.toNat + 3 ≤ 255 →
    exec (.mul (regByte r.castSucc)) s = .next { s with
      regs := s.regs.set r.castSucc (BitVec.ofNat 8 ((s.reg r.castSucc).toNat * (s.reg r.succ).toNat % 256))
      pc := s.pc + 3 }

/-- 43 section 3: CMP sets one flag by unsigned comparison and keeps the other two (the spec's D14, D19 and D24; logs 14, 19
and 20). -/
def Obligations.CmpCompletes : Prop :=
  ∀ (s : State) (r : Fin 7), s.pc.toNat + 3 ≤ 255 →
    ((s.reg r.castSucc).toNat > (s.reg r.succ).toNat →
      exec (.cmp (regByte r.castSucc)) s = .next { s with flags := { s.flags with greater := true }, pc := s.pc + 3 }) ∧
    ((s.reg r.castSucc).toNat < (s.reg r.succ).toNat →
      exec (.cmp (regByte r.castSucc)) s = .next { s with flags := { s.flags with less := true }, pc := s.pc + 3 }) ∧
    ((s.reg r.castSucc).toNat = (s.reg r.succ).toNat →
      exec (.cmp (regByte r.castSucc)) s = .next { s with flags := { s.flags with equal := true }, pc := s.pc + 3 })

/-- 44 section on PUSH: `sp` down, the operand register down modulo 256, and that new value at the new `sp` (the spec's D8,
D9, D10 and D25; logs 9, 10, 11 and 21). -/
def Obligations.PushCompletes : Prop :=
  ∀ (s : State) (r : RegIdx), 0 < s.sp.toNat → s.pc.toNat + 2 ≤ 255 →
    exec (.push (regByte r)) s = .next { s with
      sp := s.sp - 1
      regs := s.regs.set r (s.reg r - 1)
      mem := s.mem.write (s.sp.toNat - 1) (s.reg r - 1)
      pc := s.pc + 2 }

/-- 44 section on POP: the register takes the byte at the old `sp`, and `sp` goes up (the spec's D10, log 11). -/
def Obligations.PopCompletes : Prop :=
  ∀ (s : State) (r : RegIdx), s.sp.toNat < 255 → s.pc.toNat + 2 ≤ 255 →
    exec (.pop (regByte r)) s = .next { s with
      regs := s.regs.set r (s.memRead s.sp), sp := s.sp + 1, pc := s.pc + 2 }

/-- 45 section on CALL: the return address `pc + 2` goes to the cell at the unchanged `sp`, and `pc` to the register's value
(the spec's D25, log 21). -/
def Obligations.CallCompletes : Prop :=
  ∀ (s : State) (r : RegIdx), s.pc.toNat + 2 ≤ 255 →
    exec (.call (regByte r)) s = .next { s with
      mem := s.mem.write s.sp.toNat (BitVec.ofNat 8 (s.pc.toNat + 2)), pc := s.reg r }

/-- 45 section on RET: `pc` takes the byte at the old `sp`, and `sp` goes up (the spec's D25, log 21). Legal at every `pc`. -/
def Obligations.RetCompletes : Prop :=
  ∀ s : State, s.sp.toNat < 255 → exec .ret s = .next { s with pc := s.memRead s.sp, sp := s.sp + 1 }

/-- 46 section on JMP: `pc` takes the register's value, at every `pc`. -/
def Obligations.JmpCompletes : Prop :=
  ∀ (s : State) (r : RegIdx), exec (.jmp (regByte r)) s = .next { s with pc := s.reg r }

/-- 46 section on JEQ: taken when E is 1, and then legal at every `pc`; else to `pc + 2`. -/
def Obligations.JeqCompletes : Prop :=
  ∀ (s : State) (r : RegIdx),
    (s.flags.equal = true → exec (.jeq (regByte r)) s = .next { s with pc := s.reg r }) ∧
    (s.flags.equal = false → s.pc.toNat + 2 ≤ 255 → exec (.jeq (regByte r)) s = .next { s with pc := s.pc + 2 })

/-- 46 section on JNE: taken when E is 0, and then legal at every `pc`; else to `pc + 2`. -/
def Obligations.JneCompletes : Prop :=
  ∀ (s : State) (r : RegIdx),
    (s.flags.equal = false → exec (.jne (regByte r)) s = .next { s with pc := s.reg r }) ∧
    (s.flags.equal = true → s.pc.toNat + 2 ≤ 255 → exec (.jne (regByte r)) s = .next { s with pc := s.pc + 2 })

/-! ## Faults. The policies are the spec's D3 to D7 (logs 4 to 8) -/

/-- 40 section 3 (the spec's D5, log 5; for JEQ and JNE taken or not, D15, log 15): an operand byte above 7 raises
RegisterIndex with that byte, in every instruction that has an operand, and changes nothing else. -/
def Obligations.RegisterIndexFaults : Prop :=
  ∀ (s : State) (i : Instr) (a : Byte), i.operandA = some a → 7 < a.toNat →
    exec i s = .next { s with status := .faulted (.registerIndex a.toNat) }

/-- 40 section 3 (the spec's D5, log 5): MUL and CMP of register 7 raise RegisterIndex(8): the pair has no second register. -/
def Obligations.PairIndexFaults : Prop :=
  ∀ s : State,
    exec (.mul 7) s = .next { s with status := .faulted (.registerIndex 8) } ∧
    exec (.cmp 7) s = .next { s with status := .faulted (.registerIndex 8) }

/-- 10 section 5 (the spec's D4, log 4): PUSH at `sp` 0 raises AddressRange(-1), POP and RET at `sp` 255 raise
AddressRange(256), and nothing else changes; the stack pointer never wraps. -/
def Obligations.StackPointerRangeFaults : Prop :=
  ∀ (s : State) (r : RegIdx),
    (s.sp.toNat = 0 → exec (.push (regByte r)) s = .next { s with status := .faulted (.addressRange (-1)) }) ∧
    (s.sp.toNat = 255 →
      exec (.pop (regByte r)) s = .next { s with status := .faulted (.addressRange 256) } ∧
      exec .ret s = .next { s with status := .faulted (.addressRange 256) })

/-- 10 section 4, 40 section 3 (the spec's D4, log 4): an instruction whose successor, or CALL whose return address, would
lie past 255 raises AddressRange of that address and changes nothing else; the program counter never wraps. For JEQ and JNE
this is so only when the jump is not taken; JMP, a taken jump, RET and HLT need no successor (their completion statements). -/
def Obligations.SuccessorAndReturnAddressFaults : Prop :=
  ∀ s : State,
    (255 < s.pc.toNat + 3 →
      (∀ (r : RegIdx) (v : Byte),
        exec (.ldi (regByte r) v) s = .next { s with status := .faulted (.addressRange (s.pc.toNat + 3)) }) ∧
      (∀ r : Fin 7,
        exec (.mul (regByte r.castSucc)) s = .next { s with status := .faulted (.addressRange (s.pc.toNat + 3)) } ∧
        exec (.cmp (regByte r.castSucc)) s = .next { s with status := .faulted (.addressRange (s.pc.toNat + 3)) })) ∧
    (255 < s.pc.toNat + 2 → ∀ r : RegIdx,
      exec (.prn (regByte r)) s = .next { s with status := .faulted (.addressRange (s.pc.toNat + 2)) } ∧
      exec (.call (regByte r)) s = .next { s with status := .faulted (.addressRange (s.pc.toNat + 2)) } ∧
      (0 < s.sp.toNat →
        exec (.push (regByte r)) s = .next { s with status := .faulted (.addressRange (s.pc.toNat + 2)) }) ∧
      (s.sp.toNat < 255 →
        exec (.pop (regByte r)) s = .next { s with status := .faulted (.addressRange (s.pc.toNat + 2)) }) ∧
      (s.flags.equal = false →
        exec (.jeq (regByte r)) s = .next { s with status := .faulted (.addressRange (s.pc.toNat + 2)) }) ∧
      (s.flags.equal = true →
        exec (.jne (regByte r)) s = .next { s with status := .faulted (.addressRange (s.pc.toNat + 2)) }))

/-- 40 section 2 (the spec's D3, log 6): a byte at `pc` that is none of the twelve opcodes raises IllegalOpcode with that
byte, whatever stands after it, and changes nothing else. -/
def Obligations.IllegalOpcodeFaults : Prop :=
  ∀ s : State, s.status = .running →
    s.memRead s.pc ∉ ([0x01, 0x82, 0x47, 0xA2, 0x45, 0x46, 0x50, 0x11, 0xA7, 0x54, 0x55, 0x56] : List Byte) →
    step s = .next { s with status := .faulted (.illegalOpcode (s.memRead s.pc)) }

/-- 40 section 3 (the spec's D3 to D7 and D15, logs 4 to 8 and 15): a step from RUNNING faults exactly when one of the
checks of `faultTable` fails, the first of them decides the cause and the value, and a fault changes only the status. -/
def Obligations.StepFaultsInTheOrderOfTheChecks : Prop :=
  ∀ s : State, s.status = .running →
    (∀ c, firstFault s = some c → step s = .next { s with status := .faulted c }) ∧
    (firstFault s = none → ∃ t, step s = .next t ∧ ∀ c, t.status ≠ .faulted c)

/-- 60 section 1 (the spec's D6, log 7): a step that ends in FAULTED from RUNNING leaves everything but the status as it was,
and the instruction pointed at is the faulting one. -/
def Obligations.FaultsArePrecise : Prop :=
  ∀ (s t : State) (c : Cause), s.status = .running → step s = .next t → t.status = .faulted c →
    t = { s with status := .faulted c }

/-! ## Frames: what each instruction leaves unchanged -/

/-- 10 section 3: every instruction leaves every register but its destination unchanged. The only destination is the operand
register, in LDI, MUL, PUSH and POP; R7 is no other instruction's (the spec's D10, log 11). -/
def Obligations.FrameOfRegisters : Prop :=
  ∀ (i : Instr) (s t : State) (q : RegIdx), exec i s = .next t → destReg i ≠ some (regByte q) → t.reg q = s.reg q

/-- 20 section 1 and 10 section 2: the ten instructions other than PUSH and CALL leave every byte of memory unchanged. -/
def Obligations.FrameOfMemoryWithoutStore : Prop :=
  ∀ (i : Instr) (s t : State) (b : Byte), i.op ≠ .push → i.op ≠ .call → exec i s = .next t → t.memRead b = s.memRead b

/-- 44 section on PUSH: PUSH stores one byte, at the new stack pointer its meaning computes; every other byte of memory is
unchanged, and every byte where there is no new stack pointer. -/
def Obligations.FrameOfMemoryUnderPush : Prop :=
  ∀ (a : Byte) (s t : State), exec (.push a) s = .next t →
    (∀ p, s.spDec = .ok p → ∀ b, b ≠ p → t.memRead b = s.memRead b) ∧
    (∀ c, s.spDec = .error c → ∀ b, t.memRead b = s.memRead b)

/-- 45 section on CALL: CALL stores one byte, at the stack pointer; every other byte of memory is unchanged. -/
def Obligations.FrameOfMemoryUnderCall : Prop :=
  ∀ (a : Byte) (s t : State), exec (.call a) s = .next t → ∀ b, b ≠ s.sp → t.memRead b = s.memRead b

/-- 10 sections 5 to 7: only CMP changes a flag, only PUSH, POP and RET change `sp`, only PRN changes the console stream, and
only HLT or a fault changes the status. -/
def Obligations.FrameOfFlagsStackPointerConsoleStatus : Prop :=
  ∀ (i : Instr) (s t : State), exec i s = .next t →
    (i.op ≠ .cmp → t.flags = s.flags) ∧
    (i.op ≠ .push → i.op ≠ .pop → i.op ≠ .ret → t.sp = s.sp) ∧
    (i.op ≠ .prn → t.console = s.console) ∧
    (i.op ≠ .hlt → t.status = s.status ∨ ∃ c, t = { s with status := .faulted c })

/-- R26, whole: the table of registers read (`readRegs`) and written (`destReg`). (1) No register but the destination is written.
(2) The destination is written: by every instruction that has one, with a legal operand, in some state its value changes; and PUSH
leaves its register 1 lower (said here where the register is not 0: what happens at 0 is log 10). (3) No register but the listed
ones is read: change another, and the instruction does the same to everything else (the changed register keeps the change, or
is written over). (4) Each listed one is read: for every instruction with a legal operand, in some state with that E, changing
it changes the console stream, `pc`, a flag, memory or the destination register. -/
def Obligations.RegistersReadAndWritten : Prop :=
  (∀ (i : Instr) (s t : State) (q : RegIdx), exec i s = .next t → destReg i ≠ some (regByte q) → t.reg q = s.reg q) ∧
  (∀ (i : Instr) (q : RegIdx), i.wf = true → destReg i = some (regByte q) →
    ∃ s t, s.status = .running ∧ exec i s = .next t ∧ t.status = .running ∧ t.reg q ≠ s.reg q) ∧
  (∀ (s t : State) (r : RegIdx), s.status = .running → exec (.push (regByte r)) s = .next t → t.status = .running →
    0 < (s.reg r).toNat → (t.reg r).toNat + 1 = (s.reg r).toNat) ∧
  (∀ (i : Instr) (s t : State) (q : RegIdx) (v : Byte), s.status = .running → exec i s = .next t →
    q.val ∉ readRegs i s.flags.equal →
    (t.status = .running → destReg i = some (regByte q) →
      exec i { s with regs := s.regs.set q v } = .next t) ∧
    (t.status ≠ .running ∨ destReg i ≠ some (regByte q) →
      exec i { s with regs := s.regs.set q v } = .next { t with regs := t.regs.set q v })) ∧
  (∀ (i : Instr) (e : Bool) (q : RegIdx), i.wf = true → q.val ∈ readRegs i e →
    ∃ (s t u : State) (v : Byte), s.status = .running ∧ s.flags.equal = e ∧ exec i s = .next t ∧ t.status = .running ∧
      exec i { s with regs := s.regs.set q v } = .next u ∧ u.status = .running ∧
      (u.console ≠ t.console ∨ u.pc ≠ t.pc ∨ u.flags ≠ t.flags ∨ u.mem ≠ t.mem ∨
        ∃ d, destReg i = some (regByte d) ∧ u.reg d ≠ t.reg d))

/-! ## Memory -/

/-- 20 section 2: a write makes the cell's content the value and changes nothing else, at every address; PUSH writes the
register's new value (the spec's D8, log 9) and CALL the return address `pc + 2`, which fits the cell, at the `sp` it does not
move (the spec's D25, log 21). -/
def Obligations.MemoryWriteThenRead : Prop :=
  (∀ (s : State) (a v : Byte),
    (s.memWrite a v).memRead a = v ∧ (∀ b, b ≠ a → (s.memWrite a v).memRead b = s.memRead b) ∧
    (s.memWrite a v).regs = s.regs ∧ (s.memWrite a v).pc = s.pc ∧ (s.memWrite a v).sp = s.sp ∧
    (s.memWrite a v).flags = s.flags ∧ (s.memWrite a v).status = s.status ∧ (s.memWrite a v).console = s.console) ∧
  (∀ (s t : State) (r : RegIdx), s.status = .running → exec (.push (regByte r)) s = .next t → t.status = .running →
    t.memRead t.sp = t.reg r) ∧
  (∀ (s t : State) (r : RegIdx), s.status = .running → exec (.call (regByte r)) s = .next t → t.status = .running →
    (t.memRead s.sp).toNat = s.pc.toNat + 2)

/-- The model's invariant, about its own representation of the 256 cells of 10 section 2: memory is in canonical form at
reset. -/
def Obligations.ResetMemoryIsCanonical : Prop := State.reset.Inv

/-- The model's invariant, about its own representation of the 256 cells of 10 section 2: every step keeps memory in
canonical form (addresses strictly rising, below 256, no listed cell at the unlisted value), from any state that has it. -/
def Obligations.StepKeepsMemoryCanonical : Prop :=
  ∀ s t : State, s.Inv → step s = .next t → t.Inv

/-- 95 section 4, property 6: a step changes memory only at a PUSH or a CALL, in at most one cell, at the new `sp` for PUSH
and at the unchanged `sp` for CALL. -/
def Obligations.OnlyPushAndCallWriteMemory : Prop :=
  ∀ (s t : State) (b : Byte), step s = .next t → t.memRead b ≠ s.memRead b →
    s.status = .running ∧
    ((s.memRead s.pc = 0x45 ∧ t.sp.toNat + 1 = s.sp.toNat ∧ b = t.sp) ∨
     (s.memRead s.pc = 0x50 ∧ t.sp = s.sp ∧ b = s.sp))

/-- 30 section 2 (the spec's D14, log 14): the third byte of MUL and CMP is not read: with another byte there, the step does
the same, and the byte stays. -/
def Obligations.ThirdByteOfMulAndCmpIsNotRead : Prop :=
  ∀ (s t : State) (v : Byte), s.status = .running → s.pc.toNat + 2 ≤ 255 →
    (s.memRead s.pc = 0xA2 ∨ s.memRead s.pc = 0xA7) → step s = .next t →
    step (s.memWrite (s.pc + 2) v) = .next (t.memWrite (s.pc + 2) v)

/-! ## Flags -/

/-- R31, whole. (1) The flags start at 0. (2) Only a step at CMP's opcode changes one. (3) A CMP that completes sets exactly one
to 1 and writes 0 to none, and which one does not depend on the flags: from any flags `g` it sets that same one. (4) JEQ and
JNE read E. (5) No other read exists: with the flags changed to any `g` (for a conditional jump, any `g` with the same E), every
other instruction, and a CMP that faults, does the same to everything and leaves the flags `g`. -/
def Obligations.FlagsAreSetByCmpAndReadOnlyByConditionalJumps : Prop :=
  State.reset.flags = ⟨false, false, false⟩ ∧
  (∀ s t : State, step s = .next t → t.flags ≠ s.flags → s.status = .running ∧ dispatch (s.memRead s.pc) = some .cmp) ∧
  (∀ (s t : State) (a : Byte), s.status = .running → exec (.cmp a) s = .next t → t.status = .running →
    ∃ f : Flag, (t.flags.get f = true ∧ ∀ k, k ≠ f → t.flags.get k = s.flags.get k) ∧
      ∀ g : Flags, ∃ g' : Flags, exec (.cmp a) { s with flags := g } = .next { t with flags := g' } ∧
        g'.get f = true ∧ ∀ k, k ≠ f → g'.get k = g.get k) ∧
  (∀ (s : State) (r : RegIdx), s.pc.toNat + 2 ≤ 255 →
    exec (.jeq (regByte r)) s = .next { s with pc := if s.flags.equal then s.reg r else s.pc + 2 } ∧
    exec (.jne (regByte r)) s = .next { s with pc := if s.flags.equal then s.pc + 2 else s.reg r }) ∧
  (∀ (i : Instr) (s t : State) (g : Flags), s.status = .running → exec i s = .next t →
    ((i.op ≠ .jeq ∧ i.op ≠ .jne) ∨ g.equal = s.flags.equal) →
    (i.op ≠ .cmp ∨ t.status ≠ .running) → exec i { s with flags := g } = .next { t with flags := g })

/-- 10 section 6, 95 section 4 property 2 (the spec's D24, log 20): over a run of any length, a flag that is 1 stays 1. -/
def Obligations.FlagsNeverClear : Prop :=
  ∀ (n : Nat) (s : State) (f : Flag), s.flags.get f = true → (runFor n s).flags.get f = true

/-- 10 section 6: nothing a run does depends on the Less and Greater flags: two states alike but for them are still alike but
for them after any number of steps. -/
def Obligations.LessAndGreaterNeverMatter : Prop :=
  ∀ (n : Nat) (s : State) (l g : Bool), ∃ l' g' : Bool,
    runFor n { s with flags := ⟨l, g, s.flags.equal⟩ } =
      { runFor n s with flags := ⟨l', g', (runFor n s).flags.equal⟩ }

/-! ## Whole-machine rules over runs -/

/-- 10 section 9: the reset state is RUNNING, so it records no fault; the base case of `StepKeepsRecordedCauseLegal`. -/
def Obligations.ResetStatusIsLegal : Prop := State.reset.status = .running ∧ State.reset.StatusLegal

/-- 60 section 1, the table of causes (the spec's D3 to D6, logs 4 to 7): the invariant that a FAULTED status records a cause
and a value of that table. Every step keeps it, from any state that has it. -/
def Obligations.StepKeepsRecordedCauseLegal : Prop :=
  ∀ s t : State, s.StatusLegal → step s = .next t → t.StatusLegal

/-- R132 and R204, whole: the ALU driven on a RUNNING engine with a tag other than ADD, MUL and CMP raises UnsupportedALUOp with
the tag (by its name: log 24), whatever the indices, and no register or flag changes; the run ends there; and no step of a program
raises it. That the drive of a stopped engine changes nothing is in `StoppedRunsStayStopped`. -/
def Obligations.UnsupportedAluTagIsFatalAndUnreachable : Prop :=
  (∀ (name : String) (ia ib : Nat) (s : State), s.status = .running →
    aluDirect (.other name) ia ib s = { s with status := .faulted (.unsupportedAluOp name) } ∧
    step (aluDirect (.other name) ia ib s) = .next (aluDirect (.other name) ia ib s)) ∧
  (∀ name : String, name ≠ "ADD" → name ≠ "MUL" → name ≠ "CMP" → AluTag.ofName name = .other name) ∧
  (∀ (s t : State) (name : String), s.status = .running → step s = .next t →
    t.status ≠ .faulted (.unsupportedAluOp name))

/-- 43 section 1: the ALU reads the two named registers and writes the first of them (ADD, MUL) or one flag (CMP), by a function
of the two values alone that depends on both, and nothing else. That ADD writes the first register is the spec's D13, from
general knowledge (log 13). The engine is RUNNING; the drive of a stopped one is in `StoppedRunsStayStopped`. -/
def Obligations.AluReadsTwoRegistersAndWritesOneOfThem : Prop :=
  (∀ tag : AluTag, tag = .add ∨ tag = .mul → ∃ f : Byte → Byte → Byte,
    (∃ a a' b, f a b ≠ f a' b) ∧ (∃ a b b', f a b ≠ f a b') ∧ ∀ (s : State) (ia ib : RegIdx), s.status = .running →
    aluDirect tag ia.val ib.val s = { s with regs := s.regs.set ia (f (s.reg ia) (s.reg ib)) }) ∧
  (∃ f : Byte → Byte → Flag,
    (∃ a a' b, f a b ≠ f a' b) ∧ (∃ a b b', f a b ≠ f a b') ∧ ∀ (s : State) (ia ib : RegIdx), s.status = .running →
    aluDirect .cmp ia.val ib.val s = { s with flags := s.flags.set (f (s.reg ia) (s.reg ib)) })

/-- 43 sections 1 to 3: the ALU's results at its own interface on a RUNNING engine, an unsupported tag and a bad index. That
ADD's sum goes to the first register is the spec's D13, from general knowledge (log 13). The model's own choice: of two bad
indices the first is reported (log 30). The drive of a stopped engine is in `StoppedRunsStayStopped`. -/
def Obligations.AluResultsAtItsOwnInterface : Prop :=
  ∀ s : State, s.status = .running →
    (∀ ia ib : RegIdx,
      aluDirect .add ia.val ib.val s =
        { s with regs := s.regs.set ia (BitVec.ofNat 8 (((s.reg ia).toNat + (s.reg ib).toNat) % 256)) } ∧
      aluDirect .mul ia.val ib.val s =
        { s with regs := s.regs.set ia (BitVec.ofNat 8 (((s.reg ia).toNat * (s.reg ib).toNat) % 256)) } ∧
      ((s.reg ia).toNat > (s.reg ib).toNat →
        aluDirect .cmp ia.val ib.val s = { s with flags := { s.flags with greater := true } }) ∧
      ((s.reg ia).toNat < (s.reg ib).toNat →
        aluDirect .cmp ia.val ib.val s = { s with flags := { s.flags with less := true } }) ∧
      ((s.reg ia).toNat = (s.reg ib).toNat →
        aluDirect .cmp ia.val ib.val s = { s with flags := { s.flags with equal := true } })) ∧
    (∀ (tag : AluTag) (ia ib : Nat), tag = .add ∨ tag = .mul ∨ tag = .cmp →
      (7 < ia → aluDirect tag ia ib s = { s with status := .faulted (.registerIndex ia) }) ∧
      (ia ≤ 7 → 7 < ib → aluDirect tag ia ib s = { s with status := .faulted (.registerIndex ib) })) ∧
    (∀ (name : String) (ia ib : Nat),
      aluDirect (.other name) ia ib s = { s with status := .faulted (.unsupportedAluOp name) })

/-- 10 section 7 (the spec's D6, log 7): HALTED and FAULTED are absorbing: a run that has stopped stays in the same state
for any number of further steps, a test bench that drives its ALU, with any tag and indices, changes nothing in it (that registers
and flags stay is DEDUCED, log 29), and the two status outputs are never both on. -/
def Obligations.StoppedRunsStayStopped : Prop :=
  (∀ (m n : Nat) (s : State), (runFor m s).status ≠ .running → runFor (m + n) s = runFor m s) ∧
  (∀ (tag : AluTag) (ia ib : Nat) (s : State), s.status ≠ .running → aluDirect tag ia ib s = s) ∧
  (∀ s : State, s.haltedOutput = true → s.faultedOutput = none)

/-- 40 section 4: HALTED is reached only by a step at an HLT byte, and such a step always reaches it (that `pc` stays is the
spec's D12, log 12). -/
def Obligations.HaltedExactlyByHlt : Prop :=
  ∀ s t : State, s.status = .running → step s = .next t →
    (t.status = .halted ↔ s.memRead s.pc = 0x01) ∧ (t.status = .halted → t = { s with status := .halted })

/-- 95 section 4, property 3: a step leaves the console stream, or appends to it the value of the register that a PRN at `pc`
names (the spec's D17, log 17). -/
def Obligations.ConsoleGrowsOnlyByPrn : Prop :=
  ∀ s t : State, step s = .next t →
    t.console = s.console ∨
    (s.memRead s.pc = 0x47 ∧ ∃ r : RegIdx, s.memRead (s.pc + 1) = regByte r ∧ t.console = s.console ++ [s.reg r])

/-- 95 section 4, property 7 (the spec's D10, log 11): a step moves `sp` by one or not at all: down only at a PUSH, up only at
a POP or a RET, and never past the ends of memory. -/
def Obligations.StackPointerMovesByOne : Prop :=
  ∀ s t : State, step s = .next t →
    t.sp = s.sp ∨
    (s.memRead s.pc = 0x45 ∧ t.sp.toNat + 1 = s.sp.toNat) ∨
    ((s.memRead s.pc = 0x46 ∨ s.memRead s.pc = 0x11) ∧ t.sp.toNat = s.sp.toNat + 1)

/-- 95 section 4, property 8 (the spec's D10, log 11): a step changes R7 only when operand A is 7 and the instruction is LDI,
POP or PUSH. -/
def Obligations.RegisterSevenChangesOnlyAsOperand : Prop :=
  ∀ s t : State, step s = .next t → t.reg 7 ≠ s.reg 7 →
    s.memRead (s.pc + 1) = 7 ∧ (s.memRead s.pc = 0x82 ∨ s.memRead s.pc = 0x46 ∨ s.memRead s.pc = 0x45)

/-- 95 section 1, example S1: LDI of any value into any register, then PRN of it, appends that value to the console stream;
with register 7 too, and then `sp` does not move. -/
def Obligations.LdiThenPrnEmitsTheValue : Prop :=
  ∀ (s : State) (r : RegIdx) (v : Byte), s.pc.toNat + 5 ≤ 255 →
    ∃ t u, exec (.ldi (regByte r) v) s = .next t ∧ exec (.prn (regByte r)) t = .next u ∧
      u.console = s.console ++ [v] ∧ u.sp = s.sp ∧ u.pc.toNat = s.pc.toNat + 5

/-- 95 section 1, example S4 (the spec's D8, D9; logs 9, 10): PUSH and then POP of the same register leave it one less than
before, modulo 256, and `sp` as before. -/
def Obligations.PushThenPopLosesOne : Prop :=
  ∀ (s : State) (r : RegIdx), 0 < s.sp.toNat → s.pc.toNat + 4 ≤ 255 →
    ∃ t u, exec (.push (regByte r)) s = .next t ∧ exec (.pop (regByte r)) t = .next u ∧
      u.reg r = s.reg r - 1 ∧ u.sp = s.sp ∧ u.pc = s.pc + 4 ∧ ∀ q, q ≠ r → u.reg q = s.reg q

/-- 95 section 1, example S5 (the spec's D25, log 21): CALL and then RET resume at the CALL's address plus 2, with `sp` one
higher than before the CALL. -/
def Obligations.CallThenRetResumesAfterTheCall : Prop :=
  ∀ (s : State) (r : RegIdx), s.pc.toNat + 2 ≤ 255 → s.sp.toNat < 255 →
    ∃ t u, exec (.call (regByte r)) s = .next t ∧ t.pc = s.reg r ∧ exec .ret t = .next u ∧
      u.pc = s.pc + 2 ∧ u.sp.toNat = s.sp.toNat + 1 ∧ u.regs = s.regs

/-! ## Encoding -/

/-- 30 sections 1 and 2 (opcode values: the spec's D1, log 3): decoding an encoded instruction gives it back, with every
operand byte and whatever follows it in memory. -/
def Obligations.DecodeOfEncode : Prop :=
  ∀ (i : Instr) (rest : List Byte), decodeBytes (encode i ++ rest) = some i

/-- 30 sections 1 and 2 (the spec's D1 and D14, logs 3 and 14): a list of bytes decodes to an instruction exactly when it
begins with the instruction's opcode byte and the operand bytes the instruction reads. So no operand bit is dropped, no two
instructions share bytes, and the unread third byte of MUL and CMP is free. -/
def Obligations.BytesDecodeExactlyToWhatTheyEncode : Prop :=
  ∀ (bs : List Byte) (i : Instr),
    decodeBytes bs = some i ↔ (encode i).take (1 + i.op.readsA.toNat + i.op.readsB.toNat) <+: bs

/-- 30 section 2: an opcode of each format and family, written out bit by bit, decodes to its instruction (the values: the
spec's D1, log 3). -/
def Obligations.SpecWordsDecode : Prop :=
  decodeBytes [0b00000001] = some .hlt ∧
  decodeBytes [0b10000010, 0b00000000, 0b00001000] = some (.ldi 0 8) ∧
  decodeBytes [0b01000111, 0b00000111] = some (.prn 7) ∧
  decodeBytes [0b10100010, 0b00000110, 0b11111111] = some (.mul 6) ∧
  decodeBytes [0b01000101, 0b00000011] = some (.push 3) ∧
  decodeBytes [0b01010000, 0b00000001] = some (.call 1) ∧
  decodeBytes [0b00010001] = some .ret ∧
  decodeBytes [0b01010110, 0b11111111] = some (.jne 255) ∧
  decodeBytes [0b10100000, 0b00000000, 0b00000001] = none

/-- 30 section 2, the structure of the opcode byte: the length of each of the twelve is 1 plus the two high bits of its opcode,
bit 5 marks the two ALU instructions and bit 4 those that set `pc` (the spec's D1, log 3). -/
def Obligations.OpcodeBitsTellLengthAluAndJump : Prop :=
  ∀ k : Op, k.length = 1 + k.opcode.toNat / 64 ∧
    (k.opcode.getLsbD 5 = true ↔ k = .mul ∨ k = .cmp) ∧
    (k.opcode.getLsbD 4 = true ↔ k = .call ∨ k = .ret ∨ k = .jmp ∨ k = .jeq ∨ k = .jne)

/-! ## Loader -/

/-- 48 section 2 (the spec's D18, log 18): an image of at most 256 bytes lands in file order from address 0 and nothing else
changes; a longer one is a load failure. -/
def Obligations.LoaderWritesTheImageFromZero : Prop :=
  ∀ (image : List Byte) (s : State),
    (image.length ≤ 256 → ∃ t, load image s = .ok t ∧
      (∀ a : Byte, t.memRead a = image.getD a.toNat (s.memRead a)) ∧
      t.regs = s.regs ∧ t.pc = s.pc ∧ t.sp = s.sp ∧ t.flags = s.flags ∧ t.status = s.status ∧ t.console = s.console) ∧
    (256 < image.length → load image s = .error (.tooLong image.length))
end

