-- ==== Sys2Proof/Laws/Decode.lean ====
section
/-! SUPPORT. What the dispatcher and the decoder answer. -/

namespace Sys2Proof

/-- The table gives back each operation from its opcode byte. -/
@[simp] theorem dispatch_opcode (k : Op) : dispatch k.opcode = some k := by
  cases k <;> rfl

/-- The dispatcher answers an operation only for its own opcode byte. -/
theorem dispatch_eq_some {b : Byte} {k : Op} : dispatch b = some k ↔ b = k.opcode := by
  constructor
  · intro h
    have hb : (k.opcode == b) = true := List.find?_some (p := fun k : Op => k.opcode == b) h
    exact (eq_of_beq hb).symm
  · rintro rfl
    exact dispatch_opcode k

/-- A byte that is no operation's opcode is unrecognised. -/
theorem dispatch_eq_none {b : Byte} : dispatch b = none ↔ ∀ k : Op, b ≠ k.opcode := by
  rw [Option.eq_none_iff_forall_not_mem]
  exact forall_congr' fun k => not_congr dispatch_eq_some

theorem decodeA_ok {mk : Byte → Instr} {bs : List Byte} {i : Instr} :
    decodeA mk bs = .ok i ↔ ∃ a rest, bs = a :: rest ∧ i = mk a := by
  cases bs <;> simp [decodeA, eq_comm]

theorem decodeAB_ok {mk : Byte → Byte → Instr} {bs : List Byte} {i : Instr} :
    decodeAB mk bs = .ok i ↔ ∃ a b rest, bs = a :: b :: rest ∧ i = mk a b := by
  match bs with
  | [] => simp [decodeAB]
  | [a] => simp [decodeAB]
  | a :: b :: rest => simp [decodeAB, eq_comm]

/-- The decoder's instruction has the operation of the opcode byte. -/
theorem decode_opcode {op : Byte} {bs : List Byte} {i : Instr} (h : decode op bs = .ok i) : op = i.op.opcode := by
  unfold decode at h
  split at h <;> rename_i hk
  · cases h
  all_goals
    have hk := dispatch_eq_some.mp hk
    first
    | (cases h; exact hk)
    | (obtain ⟨a, b, rest, -, rfl⟩ := decodeAB_ok.mp h; exact hk)
    | (obtain ⟨a, rest, -, rfl⟩ := decodeA_ok.mp h; exact hk)

end Sys2Proof
end

