-- ==== Sys2Proof/Laws/State.lean ====
section
/-! SUPPORT. One lemma per field per update of State, so that no proof unfolds a record update. -/

namespace Sys2Proof.Machine

variable (s : State)

@[simp] theorem State.memWrite_mem (a v : Byte) : (s.memWrite a v).mem = s.mem.write a.toNat v := rfl
@[simp] theorem State.memWrite_regs (a v : Byte) : (s.memWrite a v).regs = s.regs := rfl
@[simp] theorem State.memWrite_pc (a v : Byte) : (s.memWrite a v).pc = s.pc := rfl
@[simp] theorem State.memWrite_sp (a v : Byte) : (s.memWrite a v).sp = s.sp := rfl
@[simp] theorem State.memWrite_flags (a v : Byte) : (s.memWrite a v).flags = s.flags := rfl
@[simp] theorem State.memWrite_status (a v : Byte) : (s.memWrite a v).status = s.status := rfl
@[simp] theorem State.memWrite_console (a v : Byte) : (s.memWrite a v).console = s.console := rfl

@[simp] theorem State.setReg_mem (r : RegIdx) (v : Byte) : (s.setReg r v).mem = s.mem := rfl
@[simp] theorem State.setReg_regs (r : RegIdx) (v : Byte) : (s.setReg r v).regs = s.regs.set r v := rfl
@[simp] theorem State.setReg_pc (r : RegIdx) (v : Byte) : (s.setReg r v).pc = s.pc := rfl
@[simp] theorem State.setReg_sp (r : RegIdx) (v : Byte) : (s.setReg r v).sp = s.sp := rfl
@[simp] theorem State.setReg_flags (r : RegIdx) (v : Byte) : (s.setReg r v).flags = s.flags := rfl
@[simp] theorem State.setReg_status (r : RegIdx) (v : Byte) : (s.setReg r v).status = s.status := rfl
@[simp] theorem State.setReg_console (r : RegIdx) (v : Byte) : (s.setReg r v).console = s.console := rfl

@[simp] theorem State.setPc_mem (v : Byte) : (s.setPc v).mem = s.mem := rfl
@[simp] theorem State.setPc_regs (v : Byte) : (s.setPc v).regs = s.regs := rfl
@[simp] theorem State.setPc_pc (v : Byte) : (s.setPc v).pc = v := rfl
@[simp] theorem State.setPc_sp (v : Byte) : (s.setPc v).sp = s.sp := rfl
@[simp] theorem State.setPc_flags (v : Byte) : (s.setPc v).flags = s.flags := rfl
@[simp] theorem State.setPc_status (v : Byte) : (s.setPc v).status = s.status := rfl
@[simp] theorem State.setPc_console (v : Byte) : (s.setPc v).console = s.console := rfl

@[simp] theorem State.setSp_mem (v : Byte) : (s.setSp v).mem = s.mem := rfl
@[simp] theorem State.setSp_regs (v : Byte) : (s.setSp v).regs = s.regs := rfl
@[simp] theorem State.setSp_pc (v : Byte) : (s.setSp v).pc = s.pc := rfl
@[simp] theorem State.setSp_sp (v : Byte) : (s.setSp v).sp = v := rfl
@[simp] theorem State.setSp_flags (v : Byte) : (s.setSp v).flags = s.flags := rfl
@[simp] theorem State.setSp_status (v : Byte) : (s.setSp v).status = s.status := rfl
@[simp] theorem State.setSp_console (v : Byte) : (s.setSp v).console = s.console := rfl

@[simp] theorem State.emit_mem (v : Byte) : (s.emit v).mem = s.mem := rfl
@[simp] theorem State.emit_regs (v : Byte) : (s.emit v).regs = s.regs := rfl
@[simp] theorem State.emit_pc (v : Byte) : (s.emit v).pc = s.pc := rfl
@[simp] theorem State.emit_sp (v : Byte) : (s.emit v).sp = s.sp := rfl
@[simp] theorem State.emit_flags (v : Byte) : (s.emit v).flags = s.flags := rfl
@[simp] theorem State.emit_status (v : Byte) : (s.emit v).status = s.status := rfl
@[simp] theorem State.emit_console (v : Byte) : (s.emit v).console = s.console ++ [v] := rfl

@[simp] theorem State.halt_mem : (s.halt).mem = s.mem := rfl
@[simp] theorem State.halt_regs : (s.halt).regs = s.regs := rfl
@[simp] theorem State.halt_pc : (s.halt).pc = s.pc := rfl
@[simp] theorem State.halt_sp : (s.halt).sp = s.sp := rfl
@[simp] theorem State.halt_flags : (s.halt).flags = s.flags := rfl
@[simp] theorem State.halt_status : (s.halt).status = .halted := rfl
@[simp] theorem State.halt_console : (s.halt).console = s.console := rfl

@[simp] theorem State.raise_mem (c : Cause) : (s.raise c).mem = s.mem := rfl
@[simp] theorem State.raise_regs (c : Cause) : (s.raise c).regs = s.regs := rfl
@[simp] theorem State.raise_pc (c : Cause) : (s.raise c).pc = s.pc := rfl
@[simp] theorem State.raise_sp (c : Cause) : (s.raise c).sp = s.sp := rfl
@[simp] theorem State.raise_flags (c : Cause) : (s.raise c).flags = s.flags := rfl
@[simp] theorem State.raise_status (c : Cause) : (s.raise c).status = .faulted c := rfl
@[simp] theorem State.raise_console (c : Cause) : (s.raise c).console = s.console := rfl

@[simp] theorem State.setFlag_mem (f : Flag) : (s.setFlag f).mem = s.mem := rfl
@[simp] theorem State.setFlag_regs (f : Flag) : (s.setFlag f).regs = s.regs := rfl
@[simp] theorem State.setFlag_pc (f : Flag) : (s.setFlag f).pc = s.pc := rfl
@[simp] theorem State.setFlag_sp (f : Flag) : (s.setFlag f).sp = s.sp := rfl
@[simp] theorem State.setFlag_flags (f : Flag) : (s.setFlag f).flags = s.flags.set f := rfl
@[simp] theorem State.setFlag_status (f : Flag) : (s.setFlag f).status = s.status := rfl
@[simp] theorem State.setFlag_console (f : Flag) : (s.setFlag f).console = s.console := rfl

/-! Reading a register or a cell through an update of something else. -/

@[simp] theorem State.memWrite_reg (a v : Byte) (q : RegIdx) : (s.memWrite a v).reg q = s.reg q := rfl
@[simp] theorem State.setReg_memRead (r : RegIdx) (v : Byte) (d : Byte) : (s.setReg r v).memRead d = s.memRead d := rfl
@[simp] theorem State.setPc_reg (v : Byte) (q : RegIdx) : (s.setPc v).reg q = s.reg q := rfl
@[simp] theorem State.setPc_memRead (v : Byte) (d : Byte) : (s.setPc v).memRead d = s.memRead d := rfl
@[simp] theorem State.setSp_reg (v : Byte) (q : RegIdx) : (s.setSp v).reg q = s.reg q := rfl
@[simp] theorem State.setSp_memRead (v : Byte) (d : Byte) : (s.setSp v).memRead d = s.memRead d := rfl
@[simp] theorem State.emit_reg (v : Byte) (q : RegIdx) : (s.emit v).reg q = s.reg q := rfl
@[simp] theorem State.emit_memRead (v : Byte) (d : Byte) : (s.emit v).memRead d = s.memRead d := rfl
@[simp] theorem State.halt_reg (q : RegIdx) : (s.halt).reg q = s.reg q := rfl
@[simp] theorem State.halt_memRead (d : Byte) : (s.halt).memRead d = s.memRead d := rfl
@[simp] theorem State.raise_reg (c : Cause) (q : RegIdx) : (s.raise c).reg q = s.reg q := rfl
@[simp] theorem State.raise_memRead (c : Cause) (d : Byte) : (s.raise c).memRead d = s.memRead d := rfl
@[simp] theorem State.setFlag_reg (f : Flag) (q : RegIdx) : (s.setFlag f).reg q = s.reg q := rfl
@[simp] theorem State.setFlag_memRead (f : Flag) (d : Byte) : (s.setFlag f).memRead d = s.memRead d := rfl

/-- Reading a register after a write of one. -/
theorem State.setReg_reg (r q : RegIdx) (v : Byte) : (s.setReg r v).reg q = if r = q then v else s.reg q := by
  simp [State.reg, State.setReg, Vector.getElem_set, Fin.ext_iff]

@[simp] theorem State.setReg_reg_same (r : RegIdx) (v : Byte) : (s.setReg r v).reg r = v := by
  simp [State.setReg_reg]

theorem State.setReg_reg_other {r q : RegIdx} (v : Byte) (h : q ≠ r) : (s.setReg r v).reg q = s.reg q := by
  simp [State.setReg_reg, h.symm]

@[simp] theorem State.readE_eq : s.readE = s.flags.equal := rfl

/-- Setting a flag makes it 1 and keeps the others (R185). -/
theorem Flags.get_set (fl : Flags) (f g : Flag) : (fl.set f).get g = (decide (f = g) || fl.get g) := by
  cases f <;> cases g <;> simp [Flags.set, Flags.get]

end Sys2Proof.Machine
end

