-- ==== Sys2Proof/Laws/Memory.lean ====
section
/-! SUPPORT. The laws of memory: a read after a write, and every memory operation keeps the canonical form. -/

namespace Sys2Proof.Machine

theorem Memory.read_insert (m : Memory) (c : Host.Cell) (h : ∀ d ∈ m, d.1 ≠ c.1) (a : Nat) :
    (Memory.insert c m).read a = if c.1 = a then c.2 else m.read a := by
  induction m with
  | nil => simp [Memory.insert, Memory.read]
  | cons d m ih =>
    have hd : d.1 ≠ c.1 := h d (by simp)
    have ih := ih (fun e he => h e (by simp [he]))
    simp only [Memory.insert]
    split
    · simp [Memory.read]
    · simp only [Memory.read, ih]
      split <;> split <;> simp_all

theorem Memory.read_erase (m : Memory) (a b : Nat) :
    (m.erase a).read b = if a = b then Config.initMem else m.read b := by
  unfold Memory.erase
  induction m with
  | nil => simp [Memory.read]
  | cons d m ih =>
    by_cases hd : d.1 = a
    · simp only [List.filter_cons, hd, bne_self_eq_false, Bool.false_eq_true, if_false, ih, Memory.read]
      split <;> rfl
    · simp only [List.filter_cons, bne_iff_ne.mpr hd, if_true, Memory.read, ih]
      split <;> split <;> simp_all

theorem Memory.mem_erase {m : Memory} {a : Nat} {c : Host.Cell} : c ∈ m.erase a ↔ c ∈ m ∧ c.1 ≠ a := by
  simp [Memory.erase]

/-- A read after a write, for any list of cells (20_memory.md rules R52, R53). -/
theorem Memory.read_write (m : Memory) (a b : Nat) (v : Byte) :
    (m.write a v).read b = if a = b then v else m.read b := by
  unfold Memory.write
  split
  · simp_all [Memory.read_erase]
  · rw [Memory.read_insert _ _ (fun d hd => (Memory.mem_erase.mp hd).2)]
    by_cases h : a = b <;> simp [h, Memory.read_erase]

theorem Memory.mem_insert {m : Memory} {c d : Host.Cell} : d ∈ Memory.insert c m ↔ d = c ∨ d ∈ m := by
  induction m with
  | nil => simp [Memory.insert]
  | cons e m ih =>
    simp only [Memory.insert]
    split <;> simp [ih]
    tauto

theorem Memory.insert_rising {m : Memory} {c : Host.Cell} (hm : m.Pairwise (fun c d => c.1 < d.1))
    (hc : ∀ d ∈ m, d.1 ≠ c.1) : (Memory.insert c m).Pairwise (fun c d => c.1 < d.1) := by
  induction m with
  | nil => simp [Memory.insert]
  | cons e m ih =>
    simp only [Memory.insert]
    rw [List.pairwise_cons] at hm
    split
    · rename_i h
      refine List.pairwise_cons.mpr ⟨fun d hd => ?_, List.pairwise_cons.mpr hm⟩
      rcases List.mem_cons.mp hd with rfl | hd
      · exact h
      · exact h.trans (hm.1 d hd)
    · rename_i h
      have hne := hc e (by simp)
      refine List.pairwise_cons.mpr ⟨fun d hd => ?_, ih hm.2 fun d hd => hc d (by simp [hd])⟩
      rcases Memory.mem_insert.mp hd with rfl | hd
      · omega
      · exact hm.1 d hd

theorem Memory.erase_wf {m : Memory} (a : Nat) (h : m.wf) : (m.erase a).wf :=
  ⟨h.1.filter _, fun c hc => h.2 c (Memory.mem_erase.mp hc).1⟩

/-- A write inside the 256 cells keeps the canonical form. -/
theorem Memory.write_wf {m : Memory} {a : Nat} (v : Byte) (ha : a < Config.memCells) (h : m.wf) : (m.write a v).wf := by
  unfold Memory.write
  have he := Memory.erase_wf a h
  split
  · exact he
  · rename_i hv
    refine ⟨Memory.insert_rising he.1 fun d hd => (Memory.mem_erase.mp hd).2, fun c hc => ?_⟩
    rcases Memory.mem_insert.mp hc with rfl | hc
    · exact ⟨ha, hv⟩
    · exact he.2 c hc

/-- Equal contents are equal data: two canonical memories that read alike are the same list. -/
theorem Memory.ext_of_wf {m n : Memory} (hm : m.wf) (hn : n.wf) (h : ∀ a, m.read a = n.read a) : m = n := by
  have read_of_gt : ∀ {m : Memory} {a : Nat}, (∀ d ∈ m, a < d.1) → m.read a = Config.initMem := by
    intro m a hlt
    induction m with
    | nil => rfl
    | cons d m ih =>
      have := hlt d (by simp)
      simp only [Memory.read, if_neg (by omega : ¬ d.1 = a)]
      exact ih fun e he => hlt e (by simp [he])
  induction m generalizing n with
  | nil =>
    cases n with
    | nil => rfl
    | cons d n =>
      have := h d.1
      simp [Memory.read] at this
      exact absurd this.symm (hn.2 d (by simp)).2
  | cons c m ih =>
    cases n with
    | nil =>
      have := h c.1
      simp [Memory.read] at this
      exact absurd this (hm.2 c (by simp)).2
    | cons d n =>
      have hc := List.pairwise_cons.mp hm.1
      have hd := List.pairwise_cons.mp hn.1
      have hkey : c.1 = d.1 := by
        rcases lt_trichotomy c.1 d.1 with hlt | heq | hgt
        · have := h c.1
          rw [read_of_gt (m := d :: n) (by
            intro e he
            rcases List.mem_cons.mp he with rfl | he
            · exact hlt
            · exact hlt.trans (hd.1 e he))] at this
          simp [Memory.read] at this
          exact absurd this (hm.2 c (by simp)).2
        · exact heq
        · have := h d.1
          rw [read_of_gt (m := c :: m) (by
            intro e he
            rcases List.mem_cons.mp he with rfl | he
            · exact hgt
            · exact hgt.trans (hc.1 e he))] at this
          simp [Memory.read] at this
          exact absurd this.symm (hn.2 d (by simp)).2
      have hval : c.2 = d.2 := by
        have := h c.1
        simpa [Memory.read, hkey] using this
      have hcd : c = d := Prod.ext hkey hval
      subst hcd
      congr 1
      refine ih ⟨hc.2, fun e he => hm.2 e (by simp [he])⟩ ⟨hd.2, fun e he => hn.2 e (by simp [he])⟩ fun a => ?_
      by_cases ha : c.1 = a
      · subst ha
        rw [read_of_gt hc.1, read_of_gt hd.1]
      · have := h a
        simpa [Memory.read, ha] using this

/-- A read after a write of a cell of the state. -/
theorem State.memWrite_memRead (s : State) (a b v : Byte) :
    (s.memWrite a v).memRead b = if a = b then v else s.memRead b := by
  simp [State.memRead, Memory.read_write, BitVec.toNat_inj]

@[simp] theorem State.memWrite_memRead_same (s : State) (a v : Byte) : (s.memWrite a v).memRead a = v := by
  simp [State.memWrite_memRead]

theorem State.memWrite_memRead_other (s : State) {a b : Byte} (v : Byte) (h : b ≠ a) :
    (s.memWrite a v).memRead b = s.memRead b := by
  simp [State.memWrite_memRead, h.symm]

/-- A cell write keeps the canonical form: every byte is an address of a cell. -/
theorem State.memWrite_wf (s : State) (a v : Byte) (h : s.mem.wf) : (s.memWrite a v).mem.wf :=
  Memory.write_wf v a.isLt h

/-- Storing bytes keeps the canonical form. -/
theorem State.storeBytes_wf (bs : List Byte) (s : State) (a : Nat) (h : s.mem.wf) : (s.storeBytes a bs).mem.wf := by
  induction bs generalizing s a with
  | nil => exact h
  | cons b bs ih =>
    simp only [State.storeBytes]
    split
    · exact ih _ _ (State.memWrite_wf s _ b h)
    · exact h

end Sys2Proof.Machine
end

