-- ==== Sys2Proof/Laws/Ops.lean ====
section
/-! SUPPORT. What the shared checks and endings can do: one lemma each, cited instead of unfolding them. -/

namespace Sys2Proof.Machine

@[simp] theorem finish_ok (s t : State) : finish s (.ok t) = .next t := rfl

@[simp] theorem finish_error (s : State) (c : Cause) : finish s (.error c) = .next (s.raise c) := rfl

/-- Everything the ending of an instruction can answer: the effects, or the fault and nothing else. -/
theorem finish_cases {s t : State} {r : Except Cause State} (h : finish s r = .next t) :
    r = .ok t ∨ ∃ c, r = .error c ∧ t = s.raise c := by
  cases r with
  | ok u => exact .inl (by simpa using h)
  | error c => exact .inr ⟨c, rfl, by simpa using h.symm⟩

/-- The ending of an instruction always answers a next state. -/
theorem finish_total (s : State) (r : Except Cause State) : ∃ t, finish s r = .next t := by
  cases r <;> simp

/-! Except's bind, so that a meaning's chain of checks is taken apart one check at a time. -/

@[simp] theorem ok_bind {α β : Type} (a : α) (f : α → Except Cause β) : (Except.ok a >>= f) = f a := rfl

@[simp] theorem error_bind {α β : Type} (c : Cause) (f : α → Except Cause β) :
    ((Except.error c : Except Cause α) >>= f) = .error c := rfl

theorem bind_eq_ok {α β : Type} {x : Except Cause α} {f : α → Except Cause β} {b : β} :
    (x >>= f) = .ok b ↔ ∃ a, x = .ok a ∧ f a = .ok b := by
  cases x <;> simp

theorem bind_eq_error {α β : Type} {x : Except Cause α} {f : α → Except Cause β} {c : Cause} :
    (x >>= f) = .error c ↔ x = .error c ∨ ∃ a, x = .ok a ∧ f a = .error c := by
  cases x <;> simp

theorem pure_eq_ok {α : Type} {a b : α} : (pure a : Except Cause α) = .ok b ↔ a = b := by
  constructor
  · exact fun h => Except.ok.inj h
  · rintro rfl; rfl

/-! The checks. -/

theorem checkAddr_ok_iff {v : Int} {b : Byte} :
    checkAddr v = .ok b ↔ (0 ≤ v ∧ v ≤ 255) ∧ v = b.toNat := by
  unfold checkAddr
  by_cases h : 0 ≤ v ∧ v < Config.memCells
  · rw [if_pos h]
    simp only [Config.memCells] at h
    rw [Except.ok.injEq, ← BitVec.toNat_inj, BitVec.toNat_ofInt]
    omega
  · rw [if_neg h]
    simp only [Config.memCells] at h
    simp only [reduceCtorEq, false_iff]
    omega

theorem checkAddr_error_iff {v : Int} {c : Cause} :
    checkAddr v = .error c ↔ (v < 0 ∨ 255 < v) ∧ c = .addressRange v := by
  unfold checkAddr
  by_cases h : 0 ≤ v ∧ v < Config.memCells
  · rw [if_pos h]
    simp only [Config.memCells] at h
    simp only [reduceCtorEq, false_iff]
    omega
  · rw [if_neg h]
    simp only [Config.memCells] at h
    rw [Except.error.injEq, eq_comm (a := c)]
    exact ⟨fun hc => ⟨by omega, hc⟩, fun hc => hc.2⟩

theorem checkAddr_ofNat {n : Nat} (h : n ≤ 255) : checkAddr n = .ok (BitVec.ofNat 8 n) := by
  rw [checkAddr_ok_iff]
  simp
  omega

/-- The value of a byte a sum of small numbers fits in. -/
theorem byte_add_toNat {b : Byte} {n : Nat} (h : b.toNat + n ≤ 255) : (b + BitVec.ofNat 8 n).toNat = b.toNat + n := by
  rw [BitVec.toNat_add, BitVec.toNat_ofNat]
  omega

theorem State.pcPlus_ok {s : State} {n : Nat} (h : s.pc.toNat + n ≤ 255) :
    s.pcPlus n = .ok (s.pc + BitVec.ofNat 8 n) := by
  unfold State.pcPlus
  rw [checkAddr_ok_iff, byte_add_toNat h]
  omega

theorem State.pcPlus_error {s : State} {n : Nat} (h : 255 < s.pc.toNat + n) :
    s.pcPlus n = .error (.addressRange (s.pc.toNat + n)) := by
  unfold State.pcPlus
  rw [checkAddr_error_iff]
  exact ⟨.inr (by omega), rfl⟩

theorem State.returnAddress_eq (s : State) : s.returnAddress = s.pcPlus 2 := rfl

theorem State.spDec_ok {s : State} (h : 0 < s.sp.toNat) : s.spDec = .ok (s.sp - 1) := by
  unfold State.spDec
  rw [checkAddr_ok_iff]
  have := s.sp.isLt
  rw [BitVec.toNat_sub]
  simp
  omega

theorem State.spDec_error {s : State} (h : s.sp.toNat = 0) : s.spDec = .error (.addressRange (-1)) := by
  unfold State.spDec
  rw [checkAddr_error_iff]
  simp [h]

theorem State.spInc_ok {s : State} (h : s.sp.toNat < 255) : s.spInc = .ok (s.sp + 1) := by
  unfold State.spInc
  rw [checkAddr_ok_iff]
  have : (s.sp + 1).toNat = s.sp.toNat + 1 := byte_add_toNat (n := 1) (by omega)
  omega

theorem State.spInc_error {s : State} (h : s.sp.toNat = 255) : s.spInc = .error (.addressRange 256) := by
  unfold State.spInc
  rw [checkAddr_error_iff]
  simp [h]

@[simp] theorem checkIndex_val (r : RegIdx) : checkIndex r.val = .ok r := by
  simp [checkIndex]

theorem checkIndex_ok_iff {i : Nat} {r : RegIdx} : checkIndex i = .ok r ↔ i = r.val := by
  unfold checkIndex
  split
  · simp [Fin.ext_iff]
  · simp; omega

theorem checkIndex_error_iff {i : Nat} {c : Cause} : checkIndex i = .error c ↔ 8 ≤ i ∧ c = .registerIndex i := by
  unfold checkIndex
  split
  · simp; omega
  · simp [eq_comm]; omega

@[simp] theorem regByte_toNat (r : RegIdx) : (regByte r).toNat = r.val := by
  simp [regByte]; omega

@[simp] theorem checkReg_regByte (r : RegIdx) : checkReg (regByte r) = .ok r := by
  simp [checkReg]

theorem checkReg_ok_iff {a : Byte} {r : RegIdx} : checkReg a = .ok r ↔ a = regByte r := by
  rw [checkReg, checkIndex_ok_iff, ← BitVec.toNat_inj, regByte_toNat]

theorem checkReg_error {a : Byte} (h : 7 < a.toNat) : checkReg a = .error (.registerIndex a.toNat) := by
  rw [checkReg, checkIndex_error_iff]
  exact ⟨h, rfl⟩

@[simp] theorem checkNext_castSucc (r : Fin 7) : checkNext r.castSucc = .ok r.succ := by
  rw [checkNext, checkIndex_ok_iff]; simp

@[simp] theorem checkNext_last : checkNext 7 = .error (.registerIndex 8) := rfl

/-- A legal operand byte names a register. -/
theorem exists_regByte {a : Byte} (h : a.toNat ≤ 7) : ∃ r : RegIdx, a = regByte r :=
  ⟨⟨a.toNat, by omega⟩, by rw [← BitVec.toNat_inj, regByte_toNat]⟩

@[simp] theorem State.regOf_regByte (s : State) (r : RegIdx) : s.regOf (regByte r) = some (s.reg r) := by
  simp [State.regOf]

/-! The ALU's own interface: what it does on a RUNNING engine when its checks pass, and when one fails. -/

theorem aluChecked_regs {tag : AluTag} (h : checkTag tag = .ok ()) (ia ib : RegIdx) (s : State) :
    aluChecked tag ia.val ib.val s = alu tag ia ib s := by
  simp [aluChecked, h]

theorem aluDirect_of_ok {tag : AluTag} {ia ib : Nat} {s t : State} (hs : s.status = .running)
    (h : aluChecked tag ia ib s = .ok t) : aluDirect tag ia ib s = t := by
  simp [aluDirect, hs, h]

theorem aluDirect_of_error {tag : AluTag} {ia ib : Nat} {s : State} {c : Cause} (hs : s.status = .running)
    (h : aluChecked tag ia ib s = .error c) : aluDirect tag ia ib s = s.raise c := by
  simp [aluDirect, hs, h]

/-- The self-decrement is subtraction of 1 modulo 256. -/
theorem pushValue_eq (v : Byte) : pushValue v = v - 1 := by
  rw [← BitVec.toNat_inj, pushValue, BitVec.toNat_ofInt, BitVec.toNat_sub]
  have := v.isLt
  simp
  omega

end Sys2Proof.Machine
end

