-- ==== Sys2Proof/Laws/Exec.lean ====
section
/-! SUPPORT. What each instruction can do, said once: its effect under its checks, or a fault that changes only the status. -/

namespace Sys2Proof.Machine

/-! The checks as equivalences. -/

theorem State.pcPlus_ok_iff {s : State} {n : Nat} {b : Byte} :
    s.pcPlus n = .ok b ↔ s.pc.toNat + n ≤ 255 ∧ b = s.pc + BitVec.ofNat 8 n := by
  by_cases h : s.pc.toNat + n ≤ 255
  · rw [State.pcPlus_ok h]; simp [h, eq_comm]
  · rw [State.pcPlus_error (by omega)]; simp [h]

theorem State.pcPlus_error_iff {s : State} {n : Nat} {c : Cause} :
    s.pcPlus n = .error c ↔ 255 < s.pc.toNat + n ∧ c = .addressRange (s.pc.toNat + n) := by
  by_cases h : s.pc.toNat + n ≤ 255
  · rw [State.pcPlus_ok h]; simp; omega
  · rw [State.pcPlus_error (by omega)]; simp [eq_comm]; omega

theorem State.spDec_ok_iff {s : State} {b : Byte} : s.spDec = .ok b ↔ 0 < s.sp.toNat ∧ b = s.sp - 1 := by
  by_cases h : 0 < s.sp.toNat
  · rw [State.spDec_ok h]; simp [h, eq_comm]
  · rw [State.spDec_error (by omega)]; simp [h]

theorem State.spDec_error_iff {s : State} {c : Cause} :
    s.spDec = .error c ↔ s.sp.toNat = 0 ∧ c = .addressRange (-1) := by
  by_cases h : s.sp.toNat = 0
  · rw [State.spDec_error h]; simp [h, eq_comm]
  · rw [State.spDec_ok (by omega)]; simp [h]

theorem State.spInc_ok_iff {s : State} {b : Byte} : s.spInc = .ok b ↔ s.sp.toNat < 255 ∧ b = s.sp + 1 := by
  by_cases h : s.sp.toNat < 255
  · rw [State.spInc_ok h]; simp [h, eq_comm]
  · rw [State.spInc_error (by have := s.sp.isLt; omega)]; simp [h]

theorem State.spInc_error_iff {s : State} {c : Cause} :
    s.spInc = .error c ↔ s.sp.toNat = 255 ∧ c = .addressRange 256 := by
  by_cases h : s.sp.toNat = 255
  · rw [State.spInc_error h]; simp [h, eq_comm]
  · rw [State.spInc_ok (by have := s.sp.isLt; omega)]; simp [h]

theorem checkReg_error_iff {a : Byte} {c : Cause} :
    checkReg a = .error c ↔ 7 < a.toNat ∧ c = .registerIndex a.toNat := by
  rw [checkReg, checkIndex_error_iff]; exact Iff.rfl

theorem checkNext_ok_iff {r q : RegIdx} : checkNext r = .ok q ↔ q.val = r.val + 1 := by
  rw [checkNext, checkIndex_ok_iff]; exact eq_comm

theorem checkNext_error_iff {r : RegIdx} {c : Cause} : checkNext r = .error c ↔ r.val = 7 ∧ c = .registerIndex 8 := by
  rw [checkNext, checkIndex_error_iff]
  constructor
  · rintro ⟨h, rfl⟩
    have : r.val = 7 := by omega
    exact ⟨this, by rw [this]⟩
  · rintro ⟨h, rfl⟩
    exact ⟨by omega, by rw [h]⟩

/-- The effect an instruction has when every check of it passes, with the checks (files 41 to 46 of the spec). -/
def Effect (i : Instr) (s t : State) : Prop :=
  match i with
  | .hlt => t = s.halt
  | .ldi a v => ∃ r, a = regByte r ∧ s.pc.toNat + 3 ≤ 255 ∧ t = (s.setReg r v).setPc (s.pc + 3)
  | .prn a => ∃ r, a = regByte r ∧ s.pc.toNat + 2 ≤ 255 ∧ t = (s.emit (s.reg r)).setPc (s.pc + 2)
  | .mul a => ∃ r q : RegIdx, a = regByte r ∧ q.val = r.val + 1 ∧ s.pc.toNat + 3 ≤ 255 ∧
      t = (s.setReg r (aluProduct (s.reg r) (s.reg q))).setPc (s.pc + 3)
  | .push a => ∃ r, a = regByte r ∧ 0 < s.sp.toNat ∧ s.pc.toNat + 2 ≤ 255 ∧
      t = (((s.setSp (s.sp - 1)).setReg r (pushValue (s.reg r))).memWrite (s.sp - 1) (pushValue (s.reg r))).setPc (s.pc + 2)
  | .pop a => ∃ r, a = regByte r ∧ s.sp.toNat < 255 ∧ s.pc.toNat + 2 ≤ 255 ∧
      t = ((s.setReg r (s.memRead s.sp)).setSp (s.sp + 1)).setPc (s.pc + 2)
  | .call a => ∃ r, a = regByte r ∧ s.pc.toNat + 2 ≤ 255 ∧ t = (s.memWrite s.sp (s.pc + 2)).setPc (s.reg r)
  | .ret => s.sp.toNat < 255 ∧ t = (s.setSp (s.sp + 1)).setPc (s.memRead s.sp)
  | .cmp a => ∃ r q : RegIdx, a = regByte r ∧ q.val = r.val + 1 ∧ s.pc.toNat + 3 ≤ 255 ∧
      t = (s.setFlag (compareFlag (s.reg r) (s.reg q))).setPc (s.pc + 3)
  | .jmp a => ∃ r, a = regByte r ∧ t = s.setPc (s.reg r)
  | .jeq a => ∃ r, a = regByte r ∧
      ((s.flags.equal = true ∧ t = s.setPc (s.reg r)) ∨
       (s.flags.equal = false ∧ s.pc.toNat + 2 ≤ 255 ∧ t = s.setPc (s.pc + 2)))
  | .jne a => ∃ r, a = regByte r ∧
      ((s.flags.equal = false ∧ t = s.setPc (s.reg r)) ∨
       (s.flags.equal = true ∧ s.pc.toNat + 2 ≤ 255 ∧ t = s.setPc (s.pc + 2)))

theorem jumpIf_ok_iff {b : Bool} {a : Byte} {s t : State} :
    jumpIf b a s = .ok t ↔ ∃ r, a = regByte r ∧
      ((b = true ∧ t = s.setPc (s.reg r)) ∨ (b = false ∧ s.pc.toNat + 2 ≤ 255 ∧ t = s.setPc (s.pc + 2))) := by
  simp only [jumpIf, bind_eq_ok, checkReg_ok_iff]
  refine exists_congr fun r => and_congr_right fun _ => ?_
  cases b
  · simp only [Bool.false_eq_true, if_false, false_and, false_or, true_and, bind_eq_ok, State.pcPlus_ok_iff, pure_eq_ok]
    constructor
    · rintro ⟨p, ⟨h, rfl⟩, rfl⟩; exact ⟨h, rfl⟩
    · rintro ⟨h, rfl⟩; exact ⟨_, ⟨h, rfl⟩, rfl⟩
  · simp only [if_true, pure_eq_ok, true_and, Bool.true_eq_false, false_and, or_false]
    exact eq_comm

/-- The faults an instruction takes, with the conditions, in the order of its checks (40_cycle_and_decode.md rules R96 to
R98). The checks of the fetch are not among them. -/
def FaultOf (i : Instr) (s : State) (c : Cause) : Prop :=
  let badReg (a : Byte) := 7 < a.toNat ∧ c = .registerIndex a.toNat
  let noPc (n : Nat) := 255 < s.pc.toNat + n ∧ c = .addressRange (s.pc.toNat + n)
  match i with
  | .hlt => False
  | .ldi a _ => badReg a ∨ (a.toNat ≤ 7 ∧ noPc 3)
  | .prn a => badReg a ∨ (a.toNat ≤ 7 ∧ noPc 2)
  | .mul a => badReg a ∨ (a.toNat = 7 ∧ c = .registerIndex 8) ∨ (a.toNat ≤ 6 ∧ noPc 3)
  | .push a => badReg a ∨ (a.toNat ≤ 7 ∧ s.sp.toNat = 0 ∧ c = .addressRange (-1)) ∨ (a.toNat ≤ 7 ∧ 0 < s.sp.toNat ∧ noPc 2)
  | .pop a => badReg a ∨ (a.toNat ≤ 7 ∧ s.sp.toNat = 255 ∧ c = .addressRange 256) ∨
      (a.toNat ≤ 7 ∧ s.sp.toNat < 255 ∧ noPc 2)
  | .call a => badReg a ∨ (a.toNat ≤ 7 ∧ noPc 2)
  | .ret => s.sp.toNat = 255 ∧ c = .addressRange 256
  | .cmp a => badReg a ∨ (a.toNat = 7 ∧ c = .registerIndex 8) ∨ (a.toNat ≤ 6 ∧ noPc 3)
  | .jmp a => badReg a
  | .jeq a => badReg a ∨ (a.toNat ≤ 7 ∧ s.flags.equal = false ∧ noPc 2)
  | .jne a => badReg a ∨ (a.toNat ≤ 7 ∧ s.flags.equal = true ∧ noPc 2)

/-- A legal operand byte is at most 7. -/
theorem regByte_le (r : RegIdx) : (regByte r).toNat ≤ 7 := by
  rw [regByte_toNat]; omega

/-! A chain of checks that fails, taken apart at its first check. -/

theorem checkReg_bind_error {a : Byte} {c : Cause} {f : RegIdx → Except Cause State} (h : (checkReg a >>= f) = .error c) :
    (7 < a.toNat ∧ c = .registerIndex a.toNat) ∨ ∃ r, a = regByte r ∧ a.toNat ≤ 7 ∧ f r = .error c := by
  rcases bind_eq_error.mp h with h1 | ⟨r, hr, h1⟩
  · exact .inl (checkReg_error_iff.mp h1)
  · have ha := checkReg_ok_iff.mp hr
    exact .inr ⟨r, ha, ha ▸ regByte_le r, h1⟩

theorem checkNext_bind_error {r : RegIdx} {c : Cause} {f : RegIdx → Except Cause State} (h : (checkNext r >>= f) = .error c) :
    ((regByte r).toNat = 7 ∧ c = .registerIndex 8) ∨ ((regByte r).toNat ≤ 6 ∧ ∃ q, f q = .error c) := by
  rw [regByte_toNat]
  rcases bind_eq_error.mp h with h1 | ⟨q, hq, h1⟩
  · exact .inl (checkNext_error_iff.mp h1)
  · have := checkNext_ok_iff.mp hq
    exact .inr ⟨by omega, q, h1⟩

theorem pcPlus_bind_error {s : State} {n : Nat} {c : Cause} {g : Byte → Except Cause State} (hg : ∀ p, g p ≠ .error c)
    (h : (s.pcPlus n >>= g) = .error c) : 255 < s.pc.toNat + n ∧ c = .addressRange (s.pc.toNat + n) := by
  rcases bind_eq_error.mp h with h1 | ⟨p, -, h1⟩
  · exact State.pcPlus_error_iff.mp h1
  · exact absurd h1 (hg p)

theorem spDec_bind_error {s : State} {c : Cause} {f : Byte → Except Cause State} (h : (s.spDec >>= f) = .error c) :
    (s.sp.toNat = 0 ∧ c = .addressRange (-1)) ∨ (0 < s.sp.toNat ∧ ∃ q, f q = .error c) := by
  rcases bind_eq_error.mp h with h1 | ⟨q, hq, h1⟩
  · exact .inl (State.spDec_error_iff.mp h1)
  · exact .inr ⟨(State.spDec_ok_iff.mp hq).1, q, h1⟩

theorem spInc_bind_error {s : State} {c : Cause} {f : Byte → Except Cause State} (h : (s.spInc >>= f) = .error c) :
    (s.sp.toNat = 255 ∧ c = .addressRange 256) ∨ (s.sp.toNat < 255 ∧ ∃ q, f q = .error c) := by
  rcases bind_eq_error.mp h with h1 | ⟨q, hq, h1⟩
  · exact .inl (State.spInc_error_iff.mp h1)
  · exact .inr ⟨(State.spInc_ok_iff.mp hq).1, q, h1⟩

theorem jumpIf_error {b : Bool} {a : Byte} {s : State} {c : Cause} (h : jumpIf b a s = .error c) :
    (7 < a.toNat ∧ c = .registerIndex a.toNat) ∨
      (a.toNat ≤ 7 ∧ b = false ∧ 255 < s.pc.toNat + 2 ∧ c = .addressRange (s.pc.toNat + 2)) := by
  unfold jumpIf at h
  rcases checkReg_bind_error h with h1 | ⟨r, -, ha, h1⟩
  · exact .inl h1
  · cases b with
    | false => exact .inr ⟨ha, rfl, pcPlus_bind_error (fun p => by simp [pure, Except.pure]) h1⟩
    | true => exact absurd h1 (by simp [pure, Except.pure])

/-- The one thing every proof about an instruction starts from: a next state of `exec` is the instruction's effect, or the
state before with one of the instruction's faults in its status. -/
theorem exec_cases {i : Instr} {s t : State} (h : exec i s = .next t) :
    Effect i s t ∨ ∃ c, FaultOf i s c ∧ t = s.raise c := by
  cases i with
  | hlt => exact .inl (by simpa [exec, execHlt, eq_comm, Effect] using h)
  | ldi a v =>
    rcases finish_cases h with hk | ⟨c, hf, rfl⟩
    · simp only [bind_eq_ok, checkReg_ok_iff, State.pcPlus_ok_iff, pure_eq_ok] at hk
      obtain ⟨r, rfl, p, ⟨hp, rfl⟩, rfl⟩ := hk
      exact .inl ⟨r, rfl, hp, rfl⟩
    · refine .inr ⟨c, ?_, rfl⟩
      rcases checkReg_bind_error hf with h1 | ⟨r, -, ha, h1⟩
      · exact .inl h1
      · exact .inr ⟨ha, pcPlus_bind_error (fun p => by simp [pure, Except.pure]) h1⟩
  | prn a =>
    rcases finish_cases h with hk | ⟨c, hf, rfl⟩
    · simp only [bind_eq_ok, checkReg_ok_iff, State.pcPlus_ok_iff, pure_eq_ok] at hk
      obtain ⟨r, rfl, p, ⟨hp, rfl⟩, rfl⟩ := hk
      exact .inl ⟨r, rfl, hp, rfl⟩
    · refine .inr ⟨c, ?_, rfl⟩
      rcases checkReg_bind_error hf with h1 | ⟨r, -, ha, h1⟩
      · exact .inl h1
      · exact .inr ⟨ha, pcPlus_bind_error (fun p => by simp [pure, Except.pure]) h1⟩
  | mul a =>
    rcases finish_cases h with hk | ⟨c, hf, rfl⟩
    · simp only [bind_eq_ok, checkReg_ok_iff, checkNext_ok_iff, State.pcPlus_ok_iff, pure_eq_ok, alu, Except.ok.injEq] at hk
      obtain ⟨r, rfl, q, hq, p, ⟨hp, rfl⟩, u, rfl, rfl⟩ := hk
      exact .inl ⟨r, q, rfl, hq, hp, rfl⟩
    · refine .inr ⟨c, ?_, rfl⟩
      rcases checkReg_bind_error hf with h1 | ⟨r, rfl, ha, h1⟩
      · exact .inl h1
      · rcases checkNext_bind_error h1 with h2 | ⟨h7, q, h2⟩
        · exact .inr (.inl h2)
        · exact .inr (.inr ⟨h7, pcPlus_bind_error (fun p => by simp [alu, pure, Except.pure]) h2⟩)
  | push a =>
    rcases finish_cases h with hk | ⟨c, hf, rfl⟩
    · simp only [bind_eq_ok, checkReg_ok_iff, State.spDec_ok_iff, State.pcPlus_ok_iff, pure_eq_ok] at hk
      obtain ⟨r, rfl, q, ⟨hq, rfl⟩, p, ⟨hp, rfl⟩, rfl⟩ := hk
      exact .inl ⟨r, rfl, hq, hp, rfl⟩
    · refine .inr ⟨c, ?_, rfl⟩
      rcases checkReg_bind_error hf with h1 | ⟨r, -, ha, h1⟩
      · exact .inl h1
      · rcases spDec_bind_error h1 with h2 | ⟨hsp, q, h2⟩
        · exact .inr (.inl ⟨ha, h2⟩)
        · exact .inr (.inr ⟨ha, hsp, pcPlus_bind_error (fun p => by simp [pure, Except.pure]) h2⟩)
  | pop a =>
    rcases finish_cases h with hk | ⟨c, hf, rfl⟩
    · simp only [bind_eq_ok, checkReg_ok_iff, State.spInc_ok_iff, State.pcPlus_ok_iff, pure_eq_ok] at hk
      obtain ⟨r, rfl, q, ⟨hq, rfl⟩, p, ⟨hp, rfl⟩, rfl⟩ := hk
      exact .inl ⟨r, rfl, hq, hp, rfl⟩
    · refine .inr ⟨c, ?_, rfl⟩
      rcases checkReg_bind_error hf with h1 | ⟨r, -, ha, h1⟩
      · exact .inl h1
      · rcases spInc_bind_error h1 with h2 | ⟨hsp, q, h2⟩
        · exact .inr (.inl ⟨ha, h2⟩)
        · exact .inr (.inr ⟨ha, hsp, pcPlus_bind_error (fun p => by simp [pure, Except.pure]) h2⟩)
  | call a =>
    rcases finish_cases h with hk | ⟨c, hf, rfl⟩
    · simp only [bind_eq_ok, checkReg_ok_iff, State.returnAddress_eq, State.pcPlus_ok_iff, pure_eq_ok] at hk
      obtain ⟨r, rfl, p, ⟨hp, rfl⟩, rfl⟩ := hk
      exact .inl ⟨r, rfl, hp, rfl⟩
    · refine .inr ⟨c, ?_, rfl⟩
      rcases checkReg_bind_error hf with h1 | ⟨r, -, ha, h1⟩
      · exact .inl h1
      · exact .inr ⟨ha, pcPlus_bind_error (fun p => by simp [pure, Except.pure]) h1⟩
  | ret =>
    unfold exec execRet at h
    rcases finish_cases h with hk | ⟨c, hf, rfl⟩
    · simp only [bind_eq_ok, State.spInc_ok_iff, pure_eq_ok] at hk
      obtain ⟨q, ⟨hq, rfl⟩, rfl⟩ := hk
      exact .inl ⟨hq, rfl⟩
    · refine .inr ⟨c, ?_, rfl⟩
      rcases spInc_bind_error hf with h1 | ⟨-, q, h1⟩
      · exact h1
      · exact absurd h1 (by simp [pure, Except.pure])
  | cmp a =>
    rcases finish_cases h with hk | ⟨c, hf, rfl⟩
    · simp only [bind_eq_ok, checkReg_ok_iff, checkNext_ok_iff, State.pcPlus_ok_iff, pure_eq_ok, alu, Except.ok.injEq] at hk
      obtain ⟨r, rfl, q, hq, p, ⟨hp, rfl⟩, u, rfl, rfl⟩ := hk
      exact .inl ⟨r, q, rfl, hq, hp, rfl⟩
    · refine .inr ⟨c, ?_, rfl⟩
      rcases checkReg_bind_error hf with h1 | ⟨r, rfl, ha, h1⟩
      · exact .inl h1
      · rcases checkNext_bind_error h1 with h2 | ⟨h7, q, h2⟩
        · exact .inr (.inl h2)
        · exact .inr (.inr ⟨h7, pcPlus_bind_error (fun p => by simp [alu, pure, Except.pure]) h2⟩)
  | jmp a =>
    rcases finish_cases h with hk | ⟨c, hf, rfl⟩
    · obtain ⟨r, rfl, hj⟩ := jumpIf_ok_iff.mp hk
      exact .inl ⟨r, rfl, by simpa using hj⟩
    · exact .inr ⟨c, by simpa [FaultOf] using jumpIf_error hf, rfl⟩
  | jeq a =>
    rcases finish_cases h with hk | ⟨c, hf, rfl⟩
    · obtain ⟨r, rfl, hj⟩ := jumpIf_ok_iff.mp hk
      exact .inl ⟨r, rfl, by simpa using hj⟩
    · exact .inr ⟨c, jumpIf_error hf, rfl⟩
  | jne a =>
    rcases finish_cases h with hk | ⟨c, hf, rfl⟩
    · obtain ⟨r, rfl, hj⟩ := jumpIf_ok_iff.mp hk
      exact .inl ⟨r, rfl, by simpa using hj⟩
    · exact .inr ⟨c, by simpa [FaultOf] using jumpIf_error hf, rfl⟩

/-- Every instruction answers a next state, whatever the state. -/
theorem exec_total (i : Instr) (s : State) : ∃ t, exec i s = .next t := by
  cases i with
  | hlt => exact finish_total s (.ok s.halt)
  | ldi a v => unfold exec execLdi; exact finish_total _ _
  | prn a => unfold exec execPrn; exact finish_total _ _
  | mul a => unfold exec execMul; exact finish_total _ _
  | push a => unfold exec execPush; exact finish_total _ _
  | pop a => unfold exec execPop; exact finish_total _ _
  | call a => unfold exec execCall; exact finish_total _ _
  | ret => unfold exec execRet; exact finish_total _ _
  | cmp a => unfold exec execCmp; exact finish_total _ _
  | jmp a => unfold exec execJmp; exact finish_total _ _
  | jeq a => unfold exec execJeq; exact finish_total _ _
  | jne a => unfold exec execJne; exact finish_total _ _

/-- An instruction whose checks all pass answers the state with its effect. -/
theorem exec_of_effect {i : Instr} {s t : State} (h : Effect i s t) : exec i s = .next t := by
  cases i with
  | hlt => rw [show t = s.halt from h]; rfl
  | ldi a v => obtain ⟨r, rfl, hp, rfl⟩ := h; simp [exec, execLdi, State.pcPlus_ok hp]
  | prn a => obtain ⟨r, rfl, hp, rfl⟩ := h; simp [exec, execPrn, State.pcPlus_ok hp]
  | mul a => obtain ⟨r, q, rfl, hq, hp, rfl⟩ := h; simp [exec, execMul, State.pcPlus_ok hp, checkNext_ok_iff.mpr hq, alu]
  | cmp a => obtain ⟨r, q, rfl, hq, hp, rfl⟩ := h; simp [exec, execCmp, State.pcPlus_ok hp, checkNext_ok_iff.mpr hq, alu]
  | push a => obtain ⟨r, rfl, hq, hp, rfl⟩ := h; simp [exec, execPush, State.pcPlus_ok hp, State.spDec_ok hq]
  | pop a => obtain ⟨r, rfl, hq, hp, rfl⟩ := h; simp [exec, execPop, State.pcPlus_ok hp, State.spInc_ok hq]
  | call a => obtain ⟨r, rfl, hp, rfl⟩ := h; simp [exec, execCall, State.returnAddress_eq, State.pcPlus_ok hp]
  | ret => obtain ⟨hq, rfl⟩ := h; simp [exec, execRet, State.spInc_ok hq]
  | jmp a => obtain ⟨r, rfl, rfl⟩ := h; simp [exec, execJmp, jumpIf]
  | jeq a =>
    obtain ⟨r, rfl, ⟨h1, rfl⟩ | ⟨h1, hp, rfl⟩⟩ := h
    · simp [exec, execJeq, jumpIf, h1]
    · simp [exec, execJeq, jumpIf, h1, State.pcPlus_ok hp]
  | jne a =>
    obtain ⟨r, rfl, ⟨h1, rfl⟩ | ⟨h1, hp, rfl⟩⟩ := h
    · simp [exec, execJne, jumpIf, h1]
    · simp [exec, execJne, jumpIf, h1, State.pcPlus_ok hp]

/-- No instruction has both its effect and a fault. -/
theorem not_effect_and_fault {i : Instr} {s t : State} {c : Cause} (h : Effect i s t) (hc : FaultOf i s c) : False := by
  cases i with
  | hlt => exact hc
  | ldi _ _ | prn _ | call _ => obtain ⟨r, rfl, hp, rfl⟩ := h; have := regByte_le r; simp only [FaultOf] at hc; omega
  | mul _ | cmp _ =>
    obtain ⟨r, q, rfl, hq, hp, rfl⟩ := h
    have := regByte_toNat r; have := q.isLt; simp only [FaultOf] at hc; omega
  | push _ | pop _ => obtain ⟨r, rfl, hq, hp, rfl⟩ := h; have := regByte_le r; simp only [FaultOf] at hc; omega
  | ret => obtain ⟨hq, rfl⟩ := h; simp only [FaultOf] at hc; omega
  | jmp _ => obtain ⟨r, rfl, rfl⟩ := h; have := regByte_le r; simp only [FaultOf] at hc; omega
  | jeq _ | jne _ =>
    obtain ⟨r, rfl, ⟨h1, rfl⟩ | ⟨h1, hp, rfl⟩⟩ := h <;> have := regByte_le r <;> simp [FaultOf, h1] at hc <;> omega

/-- At most one fault applies. -/
theorem fault_unique {i : Instr} {s : State} {c d : Cause} (h : FaultOf i s c) (h' : FaultOf i s d) : c = d := by
  cases i with
  | hlt => exact h.elim
  | ldi _ _ | prn _ | call _ =>
    rcases h with ⟨h, rfl⟩ | ⟨h0, h1, rfl⟩ <;> rcases h' with ⟨h', rfl⟩ | ⟨h0', h1', rfl⟩ <;> first | rfl | omega
  | mul _ | cmp _ =>
    rcases h with ⟨h, rfl⟩ | ⟨h1, rfl⟩ | ⟨h0, h1, rfl⟩ <;>
      rcases h' with ⟨h', rfl⟩ | ⟨h1', rfl⟩ | ⟨h0', h1', rfl⟩ <;> first | rfl | omega
  | push _ | pop _ =>
    rcases h with ⟨h, rfl⟩ | ⟨h1, h2, rfl⟩ | ⟨h0, h1, h2, rfl⟩ <;>
      rcases h' with ⟨h', rfl⟩ | ⟨h1', h2', rfl⟩ | ⟨h0', h1', h2', rfl⟩ <;> first | rfl | omega
  | ret | jmp _ => exact h.2.trans h'.2.symm
  | jeq _ | jne _ =>
    rcases h with ⟨h, rfl⟩ | ⟨h0, h1, h2, rfl⟩ <;> rcases h' with ⟨h', rfl⟩ | ⟨h0', h1', h2', rfl⟩ <;> first | rfl | omega

/-- An instruction of which a check fails answers the FAULTED state. -/
theorem exec_of_fault {i : Instr} {s : State} {c : Cause} (h : FaultOf i s c) : exec i s = .next (s.raise c) := by
  obtain ⟨t, ht⟩ := exec_total i s
  rcases exec_cases ht with he | ⟨d, hd, rfl⟩
  · exact (not_effect_and_fault he h).elim
  · rw [fault_unique h hd]; exact ht

/-- The operand byte tells the register. -/
theorem regByte_inj {r q : RegIdx} : regByte r = regByte q ↔ r = q :=
  ⟨fun h => Fin.ext (by simpa only [regByte_toNat] using congrArg BitVec.toNat h), fun h => h ▸ rfl⟩

/-- The fault depends on the operand, `pc`, `sp` and E alone. -/
theorem fault_congr {i : Instr} {s s' : State} {c : Cause} (hpc : s'.pc = s.pc) (hsp : s'.sp = s.sp)
    (hf : s'.flags.equal = s.flags.equal) (h : FaultOf i s c) : FaultOf i s' c := by
  cases i <;> simp only [FaultOf, hpc, hsp, hf] at h ⊢ <;> exact h

/-- What an instruction can do, whole: its effect, or the fault of its first failing check. -/
theorem exec_next_iff {i : Instr} {s t : State} :
    exec i s = .next t ↔ Effect i s t ∨ ∃ c, FaultOf i s c ∧ t = s.raise c :=
  ⟨exec_cases, fun h => h.elim exec_of_effect fun ⟨_, hc, ht⟩ => ht ▸ exec_of_fault hc⟩

end Sys2Proof.Machine
end

