-- ==== Sys2Proof/Laws/Fetch.lean ====
section
/-! SUPPORT. What the fetch reads: the operand bytes that exist after the program counter. -/

namespace Sys2Proof.Machine

theorem State.byteAfterPc_some {s : State} {n : Nat} (h : s.pc.toNat + n ≤ 255) :
    s.byteAfterPc n = some (s.memRead (s.pc + BitVec.ofNat 8 n)) := by
  unfold State.byteAfterPc
  exact if_pos (by rw [Config.memCells]; omega)

theorem State.byteAfterPc_none {s : State} {n : Nat} (h : 255 < s.pc.toNat + n) : s.byteAfterPc n = none := by
  unfold State.byteAfterPc
  exact if_neg (by rw [Config.memCells]; omega)

/-- The operand bytes by where the program counter stands (40_cycle_and_decode.md rule R96 (a), (b)). -/
theorem State.operandBytes_eq (s : State) : s.operandBytes =
    if s.pc.toNat + 2 ≤ 255 then [s.memRead (s.pc + 1), s.memRead (s.pc + 2)]
    else if s.pc.toNat + 1 ≤ 255 then [s.memRead (s.pc + 1)] else [] := by
  unfold State.operandBytes
  split
  · rw [State.byteAfterPc_some (by omega), State.byteAfterPc_some (by omega)]; rfl
  · split
    · rw [State.byteAfterPc_some (by omega), State.byteAfterPc_none (by omega)]; rfl
    · rw [State.byteAfterPc_none (by omega), State.byteAfterPc_none (by omega)]; rfl

theorem State.fetch_ok_iff {s : State} {i : Instr} : s.fetch = .ok i ↔ decode (s.memRead s.pc) s.operandBytes = .ok i := by
  unfold State.fetch
  split <;> rename_i h <;> simp [h]

theorem State.fetch_error_iff {s : State} {c : Cause} :
    s.fetch = .error c ↔ ∃ e, decode (s.memRead s.pc) s.operandBytes = .error e ∧ c = s.decodeCause e := by
  unfold State.fetch
  split <;> rename_i h <;> simp [h, eq_comm]

/-- A fetch answers `i` exactly when `i`'s opcode stands at `pc` and the operand bytes `i` reads exist and are its operands
(40_cycle_and_decode.md rules R92, R95). -/
theorem State.fetch_eq_ok {s : State} {i : Instr} : s.fetch = .ok i ↔
    s.memRead s.pc = i.op.opcode ∧
    (∀ a, i.operandA = some a → s.pc.toNat + 1 ≤ 255 ∧ s.memRead (s.pc + 1) = a) ∧
    (∀ r v, i = .ldi r v → s.pc.toNat + 2 ≤ 255 ∧ s.memRead (s.pc + 2) = v) := by
  rw [State.fetch_ok_iff, State.operandBytes_eq]
  constructor
  · intro h
    refine ⟨decode_opcode h, ?_⟩
    unfold decode at h
    split at h
    · cases h
    all_goals
      first
      | (cases h; simp [Instr.operandA])
      | (obtain ⟨x, rest, hb, rfl⟩ := decodeA_ok.mp h
         by_cases h1 : s.pc.toNat + 1 ≤ 255
         · have hx : s.memRead (s.pc + 1) = x := by
             by_cases h2 : s.pc.toNat + 2 ≤ 255
             · rw [if_pos h2] at hb; exact (List.cons.inj hb).1
             · rw [if_neg h2, if_pos h1] at hb; exact (List.cons.inj hb).1
           exact ⟨fun a ha => ⟨h1, by cases ha; exact hx⟩, fun r v hr => by cases hr⟩
         · rw [if_neg (by omega), if_neg h1] at hb; cases hb)
      | (obtain ⟨x, y, rest, hb, rfl⟩ := decodeAB_ok.mp h
         by_cases h2 : s.pc.toNat + 2 ≤ 255
         · rw [if_pos h2] at hb
           have hx := (List.cons.inj hb).1
           have hy := (List.cons.inj (List.cons.inj hb).2).1
           exact ⟨fun a ha => ⟨by omega, by cases ha; exact hx⟩, fun r v hr => ⟨h2, by cases hr; exact hy⟩⟩
         · by_cases h1 : s.pc.toNat + 1 ≤ 255
           · rw [if_neg h2, if_pos h1] at hb; cases hb
           · rw [if_neg h2, if_neg h1] at hb; cases hb)
  · rintro ⟨h0, ha, hb⟩
    rw [h0]
    unfold decode
    rw [dispatch_opcode]
    cases i with
    | hlt => rfl
    | ret => rfl
    | ldi r v =>
      have h1 := ha r rfl
      have h2 := hb r v rfl
      rw [if_pos h2.1, h1.2, h2.2]; rfl
    | prn r | mul r | push r | pop r | call r | cmp r | jmp r | jeq r | jne r =>
      have h1 := ha r rfl
      dsimp only [Instr.op]
      split
      · rw [h1.2]; rfl
      · rw [if_pos h1.1, h1.2]; rfl

/-- The fetch depends on the program counter and on memory only. -/
theorem State.fetch_congr {s t : State} (hpc : t.pc = s.pc) (hmem : t.mem = s.mem) : t.fetch = s.fetch := by
  have hd : t.decodeCause = s.decodeCause := by
    funext e
    cases e <;> simp only [State.decodeCause, hpc]
  simp only [State.fetch, State.operandBytes, State.byteAfterPc, State.memRead, hpc, hmem, hd]

end Sys2Proof.Machine
end

