-- ==== Sys2Proof/Laws/PerInstr.lean ====
section
/-! SUPPORT. The per-instruction family EncodeShape: an encoding begins with the opcode byte and has the table's length. -/

namespace Sys2Proof.Laws.EncodeShape

/-- The first byte of the encoding is the opcode, and there are as many bytes as the table says (R71, R74). -/
def Statement (i : Instr) : Prop := (encode i).head? = some i.op.opcode ∧ (encode i).length = i.length

theorem hlt : Statement .hlt := ⟨rfl, rfl⟩
theorem ldi (reg imm : Byte) : Statement (.ldi reg imm) := ⟨rfl, rfl⟩
theorem prn (reg : Byte) : Statement (.prn reg) := ⟨rfl, rfl⟩
theorem mul (reg : Byte) : Statement (.mul reg) := ⟨rfl, rfl⟩
theorem push (reg : Byte) : Statement (.push reg) := ⟨rfl, rfl⟩
theorem pop (reg : Byte) : Statement (.pop reg) := ⟨rfl, rfl⟩
theorem call (reg : Byte) : Statement (.call reg) := ⟨rfl, rfl⟩
theorem ret : Statement .ret := ⟨rfl, rfl⟩
theorem cmp (reg : Byte) : Statement (.cmp reg) := ⟨rfl, rfl⟩
theorem jmp (reg : Byte) : Statement (.jmp reg) := ⟨rfl, rfl⟩
theorem jeq (reg : Byte) : Statement (.jeq reg) := ⟨rfl, rfl⟩
theorem jne (reg : Byte) : Statement (.jne reg) := ⟨rfl, rfl⟩

end Sys2Proof.Laws.EncodeShape
end

