-- ==== Sys2Proof/Laws/Step.lean ====
section
/-! SUPPORT. What one step can do, and induction over runs. -/

namespace Sys2Proof.Machine

/-- What a step is: nothing in a stopped engine, else a fault of the fetch, or the decoded instruction. -/
theorem step_cases {s t : State} (h : step s = .next t) :
    (s.status ≠ .running ∧ t = s) ∨
    (s.status = .running ∧ ((∃ c, s.fetch = .error c ∧ t = s.raise c) ∨ ∃ i, s.fetch = .ok i ∧ exec i s = .next t)) := by
  unfold step at h
  split at h <;> rename_i hs
  · refine .inr ⟨hs, ?_⟩
    split at h <;> rename_i hf
    · exact .inr ⟨_, hf, h⟩
    · exact .inl ⟨_, hf, by simpa using h.symm⟩
  · exact .inl ⟨by simp [hs], by simpa using h.symm⟩
  · exact .inl ⟨by simp [hs], by simpa using h.symm⟩

theorem step_running {s : State} {i : Instr} (hs : s.status = .running) (hf : s.fetch = .ok i) : step s = exec i s := by
  simp [step, hs, hf]

theorem step_stopped {s : State} (hs : s.status ≠ .running) : step s = .next s := by
  unfold step
  split <;> simp_all

/-- A step always answers a next state (40_cycle_and_decode.md rule R91). -/
theorem step_total (s : State) : ∃ t, step s = .next t := by
  unfold step
  split
  · split
    · exact exec_total _ _
    · exact ⟨_, rfl⟩
  · exact ⟨_, rfl⟩
  · exact ⟨_, rfl⟩

theorem step_after (s : State) : step s = .next s.after := by
  obtain ⟨t, h⟩ := step_total s
  simp [State.after, h]

/-- Everything a step can do: nothing, a fault, or the effect of the instruction whose opcode byte stands at `pc`. -/
theorem after_cases (s : State) :
    s.after = s ∨ (s.status = .running ∧ ((∃ c, s.after = s.raise c) ∨
      ∃ i, s.memRead s.pc = i.op.opcode ∧ Effect i s s.after)) := by
  rcases step_cases (step_after s) with ⟨-, h⟩ | ⟨hr, ⟨c, -, h⟩ | ⟨i, hf, h⟩⟩
  · exact .inl h
  · exact .inr ⟨hr, .inl ⟨c, h⟩⟩
  · refine .inr ⟨hr, ?_⟩
    have hop : s.memRead s.pc = i.op.opcode := by
      unfold State.fetch at hf
      split at hf <;> rename_i hd
      · cases hf; exact decode_opcode hd
      · cases hf
    rcases exec_cases h with h | ⟨c, -, h⟩
    · exact .inr ⟨i, hop, h⟩
    · exact .inl ⟨c, h⟩

/-- What one step keeps, every run keeps. -/
theorem runFor_induct {P : State → Prop} (hstep : ∀ s, P s → P s.after) (n : Nat) {s : State} (h : P s) : P (runFor n s) := by
  induction n generalizing s with
  | zero => exact h
  | succ n ih => exact ih (hstep s h)

/-- What one step relates to the state before, transitively, a run relates to its start. -/
theorem runFor_rel {R : State → State → Prop} (hrefl : ∀ s, R s s) (htrans : ∀ s t u, R s t → R t u → R s u)
    (hstep : ∀ s, R s s.after) (n : Nat) (s : State) : R s (runFor n s) := by
  induction n generalizing s with
  | zero => exact hrefl s
  | succ n ih => exact htrans _ _ _ (hstep s) (ih _)

theorem runFor_add (m n : Nat) (s : State) : runFor (m + n) s = runFor n (runFor m s) := by
  induction m generalizing s with
  | zero => simp [runFor]
  | succ m ih => rw [Nat.succ_add]; exact ih _

theorem after_stopped {s : State} (h : s.status ≠ .running) : s.after = s := by
  simp [State.after, step_stopped h]

end Sys2Proof.Machine
end

