-- ==== Sys2Proof/Tests/Slice0.lean ====
section
/-! SUPPORT. Tests. Expected results are those of spec/95_test_vectors.md (the vector's id in each docstring) and of the
encoding tables of spec/30_encoding.md; the last part holds a witness for the hypotheses of each obligation. -/

namespace Sys2Proof.Tests
open Sys2Proof Sys2Proof.Machine

/-- The start states of the vectors: reset, with the bytes stored at `pc` (95 section 0). -/
def startAt (pc : Byte) (bs : List Byte) : State := (State.reset.storeBytes pc.toNat bs).setPc pc

/-- The state a step or an instruction answers; none for the other outcomes. -/
def nextOf : Host.Outcome State Fault Refusal → Option State
  | .next t => some t
  | .fault _ => none
  | .refused _ => none

/-- The state with status FAULTED and nothing else changed: "unchanged" in the vectors. -/
def faultedOf (s : State) (c : Cause) : State := { s with status := .faulted c }

/-- L G E = 1 1 1 -/
def allFlags : Flags := ⟨true, true, true⟩

/-! ## WellFormed: a term each check refuses, and the last one it allows -/

theorem test_wf_ldi : (Instr.ldi 8 0).wf = false ∧ (Instr.ldi 7 255).wf = true := by decide
theorem test_wf_prn : (Instr.prn 8).wf = false ∧ (Instr.prn 7).wf = true := by decide
theorem test_wf_mul : (Instr.mul 7).wf = false ∧ (Instr.mul 6).wf = true := by decide
theorem test_wf_push : (Instr.push 8).wf = false ∧ (Instr.push 7).wf = true := by decide
theorem test_wf_pop : (Instr.pop 255).wf = false ∧ (Instr.pop 7).wf = true := by decide
theorem test_wf_call : (Instr.call 8).wf = false ∧ (Instr.call 7).wf = true := by decide
theorem test_wf_cmp : (Instr.cmp 7).wf = false ∧ (Instr.cmp 6).wf = true := by decide
theorem test_wf_jmp : (Instr.jmp 8).wf = false ∧ (Instr.jmp 0).wf = true := by decide
theorem test_wf_jeq : (Instr.jeq 9).wf = false ∧ (Instr.jeq 3).wf = true := by decide
theorem test_wf_jne : (Instr.jne 255).wf = false ∧ (Instr.jne 4).wf = true := by decide
theorem test_wf_hlt_ret : Instr.hlt.wf = true ∧ Instr.ret.wf = true := by decide

/-! ## Decode: a word of every constructor, written bit by bit from R71 and R74 -/

theorem test_decode_hlt : decodeBytes [0b00000001] = some .hlt := by decide
theorem test_decode_ldi : decodeBytes [0b10000010, 0b00000101, 0b11111111] = some (.ldi 5 255) := by decide
theorem test_decode_prn : decodeBytes [0b01000111, 0b00000111] = some (.prn 7) := by decide
theorem test_decode_mul : decodeBytes [0b10100010, 0b00000110, 0b00000111] = some (.mul 6) := by decide
theorem test_decode_push : decodeBytes [0b01000101, 0b00000011] = some (.push 3) := by decide
theorem test_decode_pop : decodeBytes [0b01000110, 0b00000010] = some (.pop 2) := by decide
theorem test_decode_call : decodeBytes [0b01010000, 0b00000001] = some (.call 1) := by decide
theorem test_decode_ret : decodeBytes [0b00010001] = some .ret := by decide
theorem test_decode_cmp : decodeBytes [0b10100111, 0b00000000, 0b00000001] = some (.cmp 0) := by decide
theorem test_decode_jmp : decodeBytes [0b01010100, 0b00000010] = some (.jmp 2) := by decide
theorem test_decode_jeq : decodeBytes [0b01010101, 0b00000011] = some (.jeq 3) := by decide
theorem test_decode_jne : decodeBytes [0b01010110, 0b10000100] = some (.jne 132) := by decide

/-- R76 and V-ILL: bytes that are no opcode. -/
theorem test_decode_illegal :
    ([0x00, 0x83, 0xA0, 0x65, 0x84, 0x57, 0xFF] : List Byte).map dispatch =
      [none, none, none, none, none, none, none] := by decide

/-- R74: exactly twelve of the 256 bytes are opcodes. -/
theorem test_decode_twelve :
    ((List.range 256).filter fun n => (dispatch (BitVec.ofNat 8 n)).isSome) =
      [0x01, 0x11, 0x45, 0x46, 0x47, 0x50, 0x54, 0x55, 0x56, 0x82, 0xA2, 0xA7] := by decide

/-- R78: a missing operand byte is refused by name, operand A before operand B, and never for an unrecognised opcode. -/
theorem test_decode_missing :
    decode 0x82 [] = .error .operandAMissing ∧ decode 0x82 [7] = .error .operandBMissing ∧
    decode 0x83 [] = .error (.illegalOpcode 0x83) ∧ decode 0xA2 [0] = .ok (.mul 0) := by
  refine ⟨?_, ?_, ?_, ?_⟩ <;> rfl

/-- The words of the opcode table, at the table's own bit numbering: the decoder reads each. -/
theorem test_table_words :
    [decodeTableWord 8 0x01, decodeTableWord 24 0xFF0582, decodeTableWord 16 0x0747, decodeTableWord 24 0x0100A2,
     decodeTableWord 16 0x0045, decodeTableWord 16 0x0046, decodeTableWord 16 0x0150, decodeTableWord 8 0x11,
     decodeTableWord 24 0x0100A7, decodeTableWord 16 0x0254, decodeTableWord 16 0x0355, decodeTableWord 8 0x56] =
    [some .hlt, some (.ldi 5 255), some (.prn 7), some (.mul 0), some (.push 0), some (.pop 0), some (.call 1),
     some .ret, some (.cmp 0), some (.jmp 2), some (.jeq 3), some (.jne 0)] := by decide

/-- 30 R80 and 95 P1: the assembler spells the spec's own example, byte for byte. -/
theorem test_assemble_p1 :
    assemble "LDI R0,8; LDI R1,9; MUL R0; PRN R0; HLT" =
      some [0x82, 0x00, 0x08, 0x82, 0x01, 0x09, 0xA2, 0x00, 0x01, 0x47, 0x00, 0x01] := by decide

/-- R80: hexadecimal immediates and `.byte`, one statement a line; no ADD. -/
theorem test_assemble_forms :
    assemble "LDI R2,0x0C\n.byte 255\nJNE R2" = some [0x82, 0x02, 0x0C, 0xFF, 0x56, 0x02] ∧
    assemble "ADD R0" = none ∧ assemble "LDI R8,1" = none ∧ assemble "LDI R0,256" = none := by decide

/-- R80: the spelling of an instruction. -/
theorem test_spell : spell (.ldi 0 8) = "LDI R0,8" ∧ spell (.mul 0) = "MUL R0" ∧ spell .hlt = "HLT" := by decide

/-! ## Reset and load -/

/-- V-RST 1 and R29: reset, with `sp` the copy of R7. -/
theorem test_reset :
    State.reset.pc = 0 ∧ State.reset.sp = 0xF4 ∧ State.reset.reg Config.spReg = 0xF4 ∧ State.reset.reg 0 = 0 ∧
    State.reset.memRead 0xFF = 0 ∧ State.reset.status = .running := by decide

/-- V-RST 2 -/
theorem test_load : (boot [0x82, 0x00, 0x08]).toOption = some (startAt 0 [0x82, 0x00, 0x08]) := by decide

/-- V-RST 4 and S8: a load failure. -/
theorem test_load_too_long :
    boot (List.replicate 257 1) = .error (.tooLong 257) ∧ bootFile none = .error .missingFile :=
  ⟨by unfold boot load; rw [List.length_replicate]; rfl, rfl⟩

/-- V-RST 5: a program file with comments and a blank line. -/
theorem test_program_file :
    (parseProgram "10000010 # LDI\n\n# only a comment\n00000000\n00001000\n").toOption = some [0x82, 0x00, 0x08] := by
  decide

/-- S8: a line that is no binary literal. -/
theorem test_program_file_bad : (parseProgram "10000010\n0000000Z\n00001000").toOption = none := by decide

/-- R111, R190 and S6: the console text. -/
theorem test_render : renderLine 72 = "-- 72" ∧ (State.reset.emit 0).consoleText = ["-- 0"] := by decide

/-- R191 and R192: what the host sees of a fault, with its code and value. -/
theorem test_host_view :
    (hostView (faultedOf State.reset (.registerIndex 9))).faulted = some (4, .number 9) ∧
    (hostView State.reset).inspection = none ∧ (hostView State.reset.halt).halted = true := by decide

/-- log 22: `withFetchWord` places an instruction that the very next step runs. -/
theorem test_fetch_word : (State.reset.withFetchWord 24 0x080382).after.reg 3 = 8 := by decide

/-! ## One step: HLT and PRN -/

/-- V-SYS 2 -/
theorem test_hlt_at_255 : (startAt 0xFF [0x01]).after = (startAt 0xFF [0x01]).halt := by decide

/-- V-SYS 3 -/
theorem test_hlt_then_nothing : (startAt 0 [0x01]).after.after = (startAt 0 [0x01]).halt := by decide

/-- V-SYS 5 -/
theorem test_prn :
    (startAt 0 [0x47, 0x07]).after = ((startAt 0 [0x47, 0x07]).emit 244).setPc 2 := by decide

/-- V-SYS 10 -/
theorem test_prn_at_254 :
    (startAt 0xFE [0x47, 0x00]).after = faultedOf (startAt 0xFE [0x47, 0x00]) (.addressRange 256) := by decide

/-! ## LDI -/

/-- V-LDI 4 -/
theorem test_ldi_r7 :
    (startAt 0 [0x82, 0x07, 0x10]).after = ((startAt 0 [0x82, 0x07, 0x10]).setReg 7 0x10).setPc 3 := by decide

/-- V-LDI 10: the operand B address check comes before the index check. -/
theorem test_ldi_check_order :
    (startAt 0xFE [0x82, 0xFF]).after = faultedOf (startAt 0xFE [0x82, 0xFF]) (.addressRange 256) := by decide

/-! ## MUL, CMP and the ALU -/

/-- V-MUL 6: the pair of R6 is R7. -/
theorem test_mul_pair :
    ((startAt 0 [0xA2, 0x06, 0x07]).setReg 6 2).after =
      ((startAt 0 [0xA2, 0x06, 0x07]).setReg 6 0xE8).setPc 3 := by decide

/-- V-MUL 14: the third byte's address is not checked on its own. -/
theorem test_mul_at_254 :
    (startAt 0xFE [0xA2, 0x00]).after = faultedOf (startAt 0xFE [0xA2, 0x00]) (.addressRange 257) := by decide

/-- V-CMP 4: unsigned. -/
theorem test_cmp_unsigned :
    (((startAt 0 [0xA7, 0x00, 0x01]).setReg 0 0xFF).setReg 1 1).after.flags = ⟨false, true, false⟩ := by decide

/-- V-CMP 2: sticky. -/
theorem test_cmp_sticky :
    ((((startAt 0 [0xA7, 0x00, 0x01]).setReg 0 5).setReg 1 5).setFlag .less).after.flags = ⟨true, false, true⟩ := by decide

/-- V-ALU 1: ADD, which no opcode selects. -/
theorem test_alu_add :
    aluDirect .add 0 1 ((State.reset.setReg 0 0xC8).setReg 1 0x64) =
      (State.reset.setReg 0 0x2C).setReg 1 0x64 := by decide

/-- V-ALU 4 and 6: operand order, at indices that are not the pair. -/
theorem test_alu_order :
    (aluDirect .mul 1 0 ((State.reset.setReg 0 0xC8).setReg 1 0x64)).reg 1 = 0x20 ∧
    (aluDirect .cmp 1 0 ((State.reset.setReg 0 0xC8).setReg 1 0x64)).flags = ⟨true, false, false⟩ := by decide

/-- V-ALU 9 and 10: the tag is checked before the indices. -/
theorem test_alu_faults :
    aluDirect (AluTag.ofName "XOR") 0 9 State.reset = faultedOf State.reset (.unsupportedAluOp "XOR") ∧
    aluDirect .add 0 8 State.reset = faultedOf State.reset (.registerIndex 8) := by decide

/-- R33 and R191: a bad tag does not turn HALTED into FAULTED, and a recorded cause stays. -/
theorem test_alu_stopped :
    aluDirect (.other "SUB") 0 1 State.reset.halt = State.reset.halt ∧
    aluDirect .add 0 8 (faultedOf State.reset (.illegalOpcode 0)) = faultedOf State.reset (.illegalOpcode 0) := by decide

/-! ## PUSH and POP -/

/-- V-STK 1 (V-PUSH) -/
theorem test_push :
    ((startAt 0x10 [0x45, 0x00]).setReg 0 0x0A).after =
      ((((startAt 0x10 [0x45, 0x00]).setReg 0 9).setSp 0xF3).memWrite 0xF3 9).setPc 0x12 := by decide

/-- V-STK 11: PUSH over its own opcode byte. -/
theorem test_push_over_itself :
    (((startAt 0x30 [0x45, 0x02]).setSp 0x31).setReg 2 0x81).after =
      ((((startAt 0x30 [0x45, 0x02]).setSp 0x30).setReg 2 0x80).memWrite 0x30 0x80).setPc 0x32 := by decide

/-- V-STK 17: the address is `sp`, not R7. -/
theorem test_pop_r7 :
    (((startAt 0 [0x46, 0x07]).setSp 0xF0).memWrite 0xF0 0x22).after =
      ((((startAt 0 [0x46, 0x07]).setSp 0xF1).memWrite 0xF0 0x22).setReg 7 0x22).setPc 2 := by decide

/-- V-STK 19 -/
theorem test_pop_at_top :
    ((startAt 0 [0x46, 0x00]).setSp 0xFF).after =
      faultedOf ((startAt 0 [0x46, 0x00]).setSp 0xFF) (.addressRange 256) := by decide

/-! ## CALL and RET -/

/-- V-SUB 2: CALL does not move `sp`, and destroys the byte there. -/
theorem test_call :
    ((((startAt 0x20 [0x50, 0x02]).setSp 0xF3).memWrite 0xF3 0x99).setReg 2 0x80).after =
      ((((startAt 0x20 [0x50, 0x02]).setSp 0xF3).memWrite 0xF3 0x22).setReg 2 0x80).setPc 0x80 := by decide

/-- V-SUB 5 -/
theorem test_call_at_254 :
    ((startAt 0xFE [0x50, 0x01]).setReg 1 0x0B).after =
      faultedOf ((startAt 0xFE [0x50, 0x01]).setReg 1 0x0B) (.addressRange 256) := by decide

/-- V-SUB 14: RET is legal at 255. -/
theorem test_ret_at_255 :
    ((startAt 0xFF [0x11]).memWrite 0xF4 8).after =
      (((startAt 0xFF [0x11]).memWrite 0xF4 8).setSp 0xF5).setPc 8 := by decide

/-- V-SUB 13 -/
theorem test_ret_at_top :
    ((startAt 0x0E [0x11]).setSp 0xFF).after = faultedOf ((startAt 0x0E [0x11]).setSp 0xFF) (.addressRange 256) := by
  decide

/-! ## Jumps -/

/-- V-JMP 4: JMP is legal at 254. -/
theorem test_jmp_at_254 :
    ((startAt 0xFE [0x54, 0x00]).setReg 0 0x10).after = ((startAt 0xFE [0x54, 0x00]).setReg 0 0x10).setPc 0x10 := by decide

/-- V-JMP 9 -/
theorem test_jeq_taken :
    (((startAt 0x1D [0x55, 0x03]).setReg 3 0x21).setFlag .equal).after =
      (((startAt 0x1D [0x55, 0x03]).setReg 3 0x21).setFlag .equal).setPc 0x21 := by decide

/-- V-JMP 11: L and G do not matter. -/
theorem test_jeq_not_taken :
    ((((startAt 0 [0x55, 0x01]).setReg 1 0x40).setFlag .less).setFlag .greater).after.pc = 2 := by decide

/-- V-JMP 17 -/
theorem test_jne_taken : ((startAt 0x10 [0x56, 0x02]).setReg 2 0x40).after.pc = 0x40 := by decide

/-- V-JMP 22: a jump not taken checks its operand. -/
theorem test_jne_operand_checked :
    ((startAt 0 [0x56, 0xFF]).setFlag .equal).after =
      faultedOf ((startAt 0 [0x56, 0xFF]).setFlag .equal) (.registerIndex 255) := by decide

/-! ## Unrecognised opcodes -/

/-- V-ILL 4: no operand address is computed. -/
theorem test_illegal_at_255 :
    (startAt 0xFF [0x83]).after = faultedOf (startAt 0xFF [0x83]) (.illegalOpcode 0x83) := by decide

/-- V-ILL 3: step 2 does nothing. -/
theorem test_illegal_absorbing :
    (startAt 0 [0xFF]).after.after = faultedOf (startAt 0 [0xFF]) (.illegalOpcode 0xFF) := by decide

/-! ## Witnesses: a state and operands that meet the hypotheses of each obligation, clause by clause, at a boundary -/

theorem witness_StepRunsTheDecodedInstruction :
    (startAt 0xFD [0x82, 0x01, 0xAA]).status = .running ∧
    decode ((startAt 0xFD [0x82, 0x01, 0xAA]).memRead 0xFD) (startAt 0xFD [0x82, 0x01, 0xAA]).operandBytes = .ok (.ldi 1 0xAA) ∧
    decode ((startAt 0xFF [0x11]).memRead 0xFF) (startAt 0xFF [0x11]).operandBytes = .ok .ret := ⟨rfl, rfl, rfl⟩

theorem witness_StepRunsTheInstructionEncodedAtPc :
    ∀ k b, (encode (.ldi 1 0xAA))[k]? = some b →
      (startAt 0xFD [0x82, 0x01, 0xAA]).pc.toNat + k ≤ 255 ∧
      (startAt 0xFD [0x82, 0x01, 0xAA]).memRead ((startAt 0xFD [0x82, 0x01, 0xAA]).pc + BitVec.ofNat 8 k) = b := by
  intro k b h
  match k, h with
  | 0, h => cases h; decide
  | 1, h => cases h; decide
  | 2, h => cases h; decide
  | k + 3, h => simp [encode] at h

/-- Clause (2) and (3) of the loop with an instruction that advances, at the last place it can. -/
theorem witness_SequencerLoop_advance :
    (startAt 0xFC [0x82, 0x01, 0xAA]).memRead 0xFC = (Instr.ldi 1 0xAA).op.opcode ∧
    (startAt 0xFC [0x82, 0x01, 0xAA]).memRead (0xFC + 1) = 1 ∧ (startAt 0xFC [0x82, 0x01, 0xAA]).memRead (0xFC + 2) = 0xAA ∧
    jumpTarget (.ldi 1 0xAA) (startAt 0xFC [0x82, 0x01, 0xAA]) = none ∧
    ∃ t, exec (.ldi 1 0xAA) (startAt 0xFC [0x82, 0x01, 0xAA]) = .next t ∧ t.status = .running ∧ t.pc = 0xFF :=
  ⟨by decide, by decide, by decide, by decide, _, rfl, by decide⟩

/-- Clauses (2) and (3) with a jump, at the last place it can stand; clause (1) in a halted state. -/
theorem witness_SequencerLoop_jump :
    (startAt 0xFE [0x54, 0x07]).memRead 0xFE = (Instr.jmp 7).op.opcode ∧ (startAt 0xFE [0x54, 0x07]).memRead (0xFE + 1) = 7 ∧
    jumpTarget (.jmp 7) (startAt 0xFE [0x54, 0x07]) = some 0xF4 ∧
    (∃ t, exec (.jmp 7) (startAt 0xFE [0x54, 0x07]) = .next t ∧ t.status = .running ∧ t.pc = 0xF4) ∧
    State.reset.halt.status ≠ .running :=
  ⟨by decide, by decide, by decide, ⟨_, rfl, by decide⟩, by decide⟩

/-- Clause (4) of the loop: a step at the HLT byte and one elsewhere. -/
theorem witness_SequencerLoop_halt :
    (startAt 0xFF [0x01]).status = .running ∧ (startAt 0xFF [0x01]).memRead 0xFF = Op.hlt.opcode ∧
    (startAt 0xFF [0x11]).memRead 0xFF ≠ Op.hlt.opcode := by decide

theorem witness_StepHasThreeOutcomes :
    State.reset.status = .running ∧ (startAt 0xFF [0x01]).after.status = .halted ∧
    (startAt 0 [0x47, 0x07]).after.status = .running ∧ State.reset.after.status = .faulted (.illegalOpcode 0) := by decide

/-- Two-byte instructions at 253 (PrnCompletes, CallCompletes, JeqCompletes, JneCompletes): PRN, CALL, JEQ and JNE not taken. -/
theorem witness_two_byte_completions :
    (startAt 0xFD []).pc.toNat + 2 ≤ 255 ∧ ¬ (startAt 0xFE []).pc.toNat + 2 ≤ 255 ∧
    nextOf (exec (.prn (regByte 7)) (startAt 0xFD [])) = some (((startAt 0xFD []).emit 0xF4).setPc 0xFF) ∧
    nextOf (exec (.call (regByte 7)) (startAt 0xFD [])) = some (((startAt 0xFD []).memWrite 0xF4 0xFF).setPc 0xF4) ∧
    nextOf (exec (.jeq (regByte 7)) (startAt 0xFD [])) = some ((startAt 0xFD []).setPc 0xFF) ∧
    nextOf (exec (.jne (regByte 7)) ((startAt 0xFD []).setFlag .equal)) =
      some (((startAt 0xFD []).setFlag .equal).setPc 0xFF) := by decide

/-- Three-byte instructions at 252 (LdiCompletes, MulCompletes): LDI, and MUL and CMP of the last pair. -/
theorem witness_three_byte_completions :
    (startAt 0xFC []).pc.toNat + 3 ≤ 255 ∧ ¬ (startAt 0xFD []).pc.toNat + 3 ≤ 255 ∧
    nextOf (exec (.ldi (regByte 7) 0xFF) (startAt 0xFC [])) = some (((startAt 0xFC []).setReg 7 0xFF).setPc 0xFF) ∧
    nextOf (exec (.mul (regByte (6 : Fin 7).castSucc)) ((startAt 0xFC []).setReg 6 2)) =
      some (((startAt 0xFC []).setReg 6 0xE8).setPc 0xFF) := by decide

/-- The three clauses of CMP: 255 above 244, 243 below 244, 244 equal to 244, at 252 and register 6. -/
theorem witness_CmpCompletes :
    (((startAt 0xFC []).setReg 6 0xFF).reg 6).toNat > (((startAt 0xFC []).setReg 6 0xFF).reg 7).toNat ∧
    nextOf (exec (.cmp (regByte (6 : Fin 7).castSucc)) ((startAt 0xFC []).setReg 6 0xFF)) =
      some ((((startAt 0xFC []).setReg 6 0xFF).setFlag .greater).setPc 0xFF) ∧
    (((startAt 0xFC []).setReg 6 0xF3).reg 6).toNat < (((startAt 0xFC []).setReg 6 0xF3).reg 7).toNat ∧
    nextOf (exec (.cmp (regByte (6 : Fin 7).castSucc)) ((startAt 0xFC []).setReg 6 0xF3)) =
      some ((((startAt 0xFC []).setReg 6 0xF3).setFlag .less).setPc 0xFF) ∧
    (((startAt 0xFC []).setReg 6 0xF4).reg 6).toNat = (((startAt 0xFC []).setReg 6 0xF4).reg 7).toNat ∧
    nextOf (exec (.cmp (regByte (6 : Fin 7).castSucc)) ((startAt 0xFC []).setReg 6 0xF4)) =
      some ((((startAt 0xFC []).setReg 6 0xF4).setFlag .equal).setPc 0xFF) := by decide

/-- PUSH of a zero register at `sp` 1 and `pc` 253. -/
theorem witness_PushCompletes :
    0 < ((startAt 0xFD []).setSp 1).sp.toNat ∧ ((startAt 0xFD []).setSp 1).pc.toNat + 2 ≤ 255 ∧
    nextOf (exec (.push (regByte 0)) ((startAt 0xFD []).setSp 1)) =
      some (((((startAt 0xFD []).setSp 0).setReg 0 0xFF).memWrite 0 0xFF).setPc 0xFF) := by decide

/-- POP at `sp` 254 and `pc` 253; RET at `sp` 254 and `pc` 255. -/
theorem witness_PopCompletes_RetCompletes :
    (((startAt 0xFD []).setSp 0xFE).memWrite 0xFE 7).sp.toNat < 255 ∧
    nextOf (exec (.pop (regByte 7)) (((startAt 0xFD []).setSp 0xFE).memWrite 0xFE 7)) =
      some (((((startAt 0xFD []).setSp 0xFF).memWrite 0xFE 7).setReg 7 7).setPc 0xFF) ∧
    nextOf (exec .ret (((startAt 0xFF []).setSp 0xFE).memWrite 0xFE 7)) =
      some ((((startAt 0xFF []).setSp 0xFF).memWrite 0xFE 7).setPc 7) := by decide

/-- JeqCompletes and JneCompletes: JEQ taken and JNE taken at 254, where neither has a successor. -/
theorem witness_taken_jumps :
    ((startAt 0xFE []).setFlag .equal).flags.equal = true ∧ (startAt 0xFE []).flags.equal = false ∧
    nextOf (exec (.jeq (regByte 7)) ((startAt 0xFE []).setFlag .equal)) =
      some (((startAt 0xFE []).setFlag .equal).setPc 0xF4) ∧
    nextOf (exec (.jne (regByte 7)) (startAt 0xFE [])) = some ((startAt 0xFE []).setPc 0xF4) := by decide

theorem witness_RegisterIndexFaults :
    (Instr.jeq 8).operandA = some 8 ∧ 7 < (8 : Byte).toNat ∧
    nextOf (exec (.jeq 8) State.reset) = some (faultedOf State.reset (.registerIndex 8)) ∧
    nextOf (exec (.ldi 255 0) State.reset) = some (faultedOf State.reset (.registerIndex 255)) := by decide

theorem witness_StackPointerRangeFaults :
    (State.reset.setSp 0).sp.toNat = 0 ∧ (State.reset.setSp 0xFF).sp.toNat = 255 ∧
    nextOf (exec (.push (regByte 7)) (State.reset.setSp 0)) =
      some (faultedOf (State.reset.setSp 0) (.addressRange (-1))) := by decide

/-- Each clause at its first address: 253 for three bytes and 254 for two. -/
theorem witness_SuccessorAndReturnAddressFaults :
    255 < (startAt 0xFD []).pc.toNat + 3 ∧ 255 < (startAt 0xFE []).pc.toNat + 2 ∧ 0 < (startAt 0xFE []).sp.toNat ∧
    (startAt 0xFE []).sp.toNat < 255 ∧ (startAt 0xFE []).flags.equal = false ∧
    ((startAt 0xFE []).setFlag .equal).flags.equal = true ∧
    nextOf (exec (.ldi 0 1) (startAt 0xFD [])) = some (faultedOf (startAt 0xFD []) (.addressRange 256)) ∧
    nextOf (exec (.pop 0) (startAt 0xFF [])) = some (faultedOf (startAt 0xFF []) (.addressRange 257)) := by decide

theorem witness_IllegalOpcodeFaults :
    State.reset.status = .running ∧
    State.reset.memRead State.reset.pc ∉
      ([0x01, 0x82, 0x47, 0xA2, 0x45, 0x46, 0x50, 0x11, 0xA7, 0x54, 0x55, 0x56] : List Byte) := by decide

/-- Each of the nine checks is the first to fail somewhere, and a state fails none. -/
theorem witness_StepFaultsInTheOrderOfTheChecks :
    firstFault (startAt 0xFF [0x83]) = some (.illegalOpcode 0x83) ∧
    firstFault (startAt 0xFF [0x82]) = some (.addressRange 256) ∧
    firstFault (startAt 0xFE [0x82, 0xFF]) = some (.addressRange 256) ∧
    firstFault ((startAt 0 [0x45, 0x08]).setSp 0) = some (.registerIndex 8) ∧
    firstFault (startAt 0xFE [0xA2, 0x07]) = some (.registerIndex 8) ∧
    firstFault ((startAt 0xFE [0x45]).setSp 0) = some (.addressRange (-1)) ∧
    firstFault ((startAt 0 [0x11]).setSp 0xFF) = some (.addressRange 256) ∧
    firstFault (startAt 0xFE [0x50, 0x01]) = some (.addressRange 256) ∧
    firstFault (startAt 0xFE [0xA2, 0x00]) = some (.addressRange 257) ∧
    firstFault (startAt 0xFC [0x82, 0x01, 0xAA]) = none := by decide

theorem witness_FaultsArePrecise :
    ∃ t, step State.reset = .next t ∧ State.reset.status = .running ∧ t.status = .faulted (.illegalOpcode 0) :=
  ⟨_, step_after _, by decide⟩

theorem witness_FrameOfRegisters :
    (∃ t, exec (.ldi 7 0) State.reset = .next t ∧ destReg (.ldi 7 0) ≠ some (regByte 6) ∧ t.status = .running) ∧
    (∃ t, exec (.prn 7) State.reset = .next t ∧ destReg (.prn 7) ≠ some (regByte 7) ∧ t.status = .running) :=
  ⟨⟨_, rfl, by decide⟩, ⟨_, rfl, by decide⟩⟩

theorem witness_FrameOfMemoryWithoutStore :
    (Instr.pop 7).op ≠ .push ∧ (Instr.pop 7).op ≠ .call ∧ ∃ t, exec (.pop 7) State.reset = .next t ∧ t.status = .running :=
  ⟨by decide, by decide, _, rfl, by decide⟩

/-- PUSH with a new stack pointer (0) and without one. -/
theorem witness_FrameOfMemoryUnderPush :
    (∃ t, exec (.push 7) (State.reset.setSp 1) = .next t ∧ (State.reset.setSp 1).spDec = .ok 0 ∧ t.memRead 0 = 0xF3) ∧
    (∃ t, exec (.push 7) (State.reset.setSp 0) = .next t ∧
      (State.reset.setSp 0).spDec = .error (.addressRange (-1)) ∧ t.memRead 0 = 0) :=
  ⟨⟨_, rfl, rfl, by decide⟩, ⟨_, rfl, rfl, by decide⟩⟩

theorem witness_FrameOfMemoryUnderCall :
    ∃ t, exec (.call 7) (State.reset.setSp 0xFF) = .next t ∧ t.memRead 0xFF = 2 ∧ (0 : Byte) ≠ (State.reset.setSp 0xFF).sp :=
  ⟨_, rfl, by decide⟩

/-- For each clause, an instruction outside it that completes. -/
theorem witness_FrameOfFlagsStackPointerConsoleStatus :
    (∃ t, exec (.push 0) State.reset = .next t ∧ (Instr.push 0).op ≠ .cmp ∧ (Instr.push 0).op ≠ .prn ∧
      (Instr.push 0).op ≠ .hlt ∧ t.status = .running) ∧
    (∃ t, exec (.cmp 0) State.reset = .next t ∧ (Instr.cmp 0).op ≠ .push ∧ (Instr.cmp 0).op ≠ .pop ∧
      (Instr.cmp 0).op ≠ .ret ∧ t.flags.equal = true) :=
  ⟨⟨_, rfl, by decide⟩, ⟨_, rfl, by decide⟩⟩

/-- R26, clauses (1) and (4): a register written and not read (LDI), one neither written nor read, at the edge of a pair, and one
not read where the instruction faults. -/
theorem witness_RegistersReadAndWritten_unlisted :
    (∃ t, exec (.ldi 7 1) State.reset = .next t ∧ t.status = .running ∧ destReg (.ldi 7 1) = some (regByte 7) ∧
      7 ∉ readRegs (.ldi 7 1) false) ∧
    (∃ t, exec (.mul 0) State.reset = .next t ∧ destReg (.mul 0) ≠ some (regByte 2) ∧ 2 ∉ readRegs (.mul 0) false ∧
      t.status = .running) ∧
    (∃ t, exec (.pop 7) (State.reset.setSp 0xFF) = .next t ∧ t.status ≠ .running ∧ 7 ∉ readRegs (.pop 7) false) :=
  ⟨⟨_, rfl, by decide⟩, ⟨_, rfl, by decide⟩, ⟨_, rfl, by decide⟩⟩

/-- R26, clauses (2), (3) and (5): the last legal operands that write and that are read, and PUSH of a register that holds 1. -/
theorem witness_RegistersReadAndWritten_listed :
    (Instr.mul 6).wf = true ∧ destReg (.mul 6) = some (regByte 6) ∧ 6 ∈ readRegs (.mul 6) false ∧ 7 ∈ readRegs (.mul 6) true ∧
    (Instr.jeq 7).wf = true ∧ 7 ∈ readRegs (.jeq 7) true ∧ 7 ∉ readRegs (.jeq 7) false ∧ 7 ∈ readRegs (.jne 7) false ∧
    (∃ t, exec (.push (regByte 0)) (State.reset.setReg 0 1) = .next t ∧ t.status = .running ∧
      0 < ((State.reset.setReg 0 1).reg 0).toNat ∧ t.reg 0 = 0) :=
  ⟨by decide, by decide, by decide, by decide, by decide, by decide, by decide, by decide, _, rfl, by decide⟩

theorem witness_MemoryWriteThenRead :
    (∃ t, exec (.push (regByte 0)) (State.reset.setSp 1) = .next t ∧ t.status = .running ∧ t.memRead t.sp = 0xFF) ∧
    (∃ t, exec (.call (regByte 0)) (startAt 0xFD []) = .next t ∧ t.status = .running ∧ t.memRead 0xF4 = 0xFF) :=
  ⟨⟨_, rfl, by decide⟩, ⟨_, rfl, by decide⟩⟩

/-- A step that stores and one that removes a listed cell, both from canonical memory. -/
theorem witness_StepKeepsMemoryCanonical :
    (startAt 0 [0x45, 0x00]).Inv ∧ (∃ t, step (startAt 0 [0x45, 0x00]) = .next t ∧ t.mem ≠ (startAt 0 [0x45, 0x00]).mem) ∧
    ((startAt 0 [0x45, 0x00]).setReg 0 1).Inv := by
  refine ⟨?_, ⟨_, step_after _, by decide⟩, ?_⟩ <;> unfold State.Inv <;> decide

theorem witness_OnlyPushAndCallWriteMemory :
    (∃ t, step (startAt 0 [0x45, 0x00]) = .next t ∧ t.memRead 0xF3 ≠ (startAt 0 [0x45, 0x00]).memRead 0xF3) ∧
    (∃ t, step (startAt 0 [0x50, 0x00]) = .next t ∧ t.memRead 0xF4 ≠ (startAt 0 [0x50, 0x00]).memRead 0xF4) :=
  ⟨⟨_, step_after _, by decide⟩, ⟨_, step_after _, by decide⟩⟩

theorem witness_ThirdByteOfMulAndCmpIsNotRead :
    (∃ t, step (startAt 0xFC [0xA2, 0x00]) = .next t ∧ t.status = .running) ∧
    (startAt 0xFC [0xA2, 0x00]).pc.toNat + 2 ≤ 255 ∧
    (∃ t, step (startAt 0xFD [0xA7, 0x00]) = .next t ∧ t.status ≠ .running) ∧
    (startAt 0xFD [0xA7, 0x00]).pc.toNat + 2 ≤ 255 :=
  ⟨⟨_, step_after _, by decide⟩, by decide, ⟨_, step_after _, by decide⟩, by decide⟩

/-- R31: a step that changes the flags, a CMP that completes, JEQ and JNE at 253, and for clause (5) an instruction that is no
jump, a CMP that faults, and a jump with flags of the same E. -/
theorem witness_FlagsAreSetByCmpAndReadOnlyByConditionalJumps :
    (∃ t, step (startAt 0xFC [0xA7]) = .next t ∧ t.flags ≠ (startAt 0xFC [0xA7]).flags) ∧
    (∃ t, exec (.cmp 0) (startAt 0xFC [0xA7]) = .next t ∧ t.status = .running ∧ t.flags.get .equal = true) ∧
    (startAt 0xFD []).pc.toNat + 2 ≤ 255 ∧
    (∃ t, exec (.push 0) State.reset = .next t ∧ (Instr.push 0).op ≠ .jeq ∧ (Instr.push 0).op ≠ .jne ∧ (Instr.push 0).op ≠ .cmp) ∧
    (∃ t, exec (.cmp 0) (startAt 0xFD []) = .next t ∧ t.status ≠ .running) ∧
    (∃ t, exec (.jeq 0) State.reset = .next t ∧ (⟨true, true, false⟩ : Flags).equal = State.reset.flags.equal) :=
  ⟨⟨_, step_after _, by decide⟩, ⟨_, rfl, by decide⟩, by decide, ⟨_, rfl, by decide⟩, ⟨_, rfl, by decide⟩, ⟨_, rfl, by decide⟩⟩

theorem witness_FlagsNeverClear :
    Flags.get ({ State.reset with flags := allFlags } : State).flags .less = true ∧
    (runFor 2 { State.reset with flags := allFlags }).flags = allFlags := by decide

theorem witness_StepKeepsRecordedCauseLegal :
    State.reset.StatusLegal ∧ ∃ t, step State.reset = .next t ∧ t.status = .faulted (.illegalOpcode 0) :=
  ⟨fun c h => by simp [State.reset] at h, _, step_after _, by decide⟩

theorem witness_UnsupportedAluTagIsFatalAndUnreachable :
    ("SUB" ≠ "ADD" ∧ "SUB" ≠ "MUL" ∧ "SUB" ≠ "CMP" ∧ AluTag.ofName "SUB" = .other "SUB") ∧
    State.reset.status = .running ∧ ∃ t, step (startAt 0 [0xA2]) = .next t ∧ t.status = .running :=
  ⟨by decide, by decide, _, step_after _, by decide⟩

/-- AluReadsTwoRegistersAndWritesOneOfThem (a RUNNING state) and AluResultsAtItsOwnInterface, each of its clauses. -/
theorem witness_AluResultsAtItsOwnInterface :
    State.reset.status = .running ∧
    (State.reset.reg 7).toNat > (State.reset.reg 0).toNat ∧ (State.reset.reg 0).toNat < (State.reset.reg 7).toNat ∧
    (State.reset.reg 7).toNat = (State.reset.reg 7).toNat ∧
    aluDirect .cmp 8 8 State.reset = faultedOf State.reset (.registerIndex 8) ∧
    aluDirect .mul 7 9 State.reset = faultedOf State.reset (.registerIndex 9) := by decide

theorem witness_StoppedRunsStayStopped :
    (runFor 1 State.reset).status ≠ .running ∧ State.reset.halt.status ≠ .running ∧ State.reset.halt.haltedOutput = true := by
  decide

theorem witness_HaltedExactlyByHlt :
    (∃ t, step (startAt 0xFF [0x01]) = .next t ∧ t.status = .halted) ∧
    (∃ t, step (startAt 0 [0x47]) = .next t ∧ t.status = .running) :=
  ⟨⟨_, step_after _, by decide⟩, ⟨_, step_after _, by decide⟩⟩

theorem witness_ConsoleGrowsOnlyByPrn :
    ∃ t, step (startAt 0xFD [0x47, 0x07]) = .next t ∧ t.console = [0xF4] := ⟨_, step_after _, by decide⟩

theorem witness_StackPointerMovesByOne :
    (∃ t, step ((startAt 0x10 [0x45]).setSp 1) = .next t ∧ t.sp = 0) ∧
    (∃ t, step ((startAt 0x10 [0x11]).setSp 0xFE) = .next t ∧ t.sp = 0xFF) :=
  ⟨⟨_, step_after _, by decide⟩, ⟨_, step_after _, by decide⟩⟩

theorem witness_RegisterSevenChangesOnlyAsOperand :
    ∃ t, step (startAt 0 [0x45, 0x07]) = .next t ∧ t.reg 7 ≠ (startAt 0 [0x45, 0x07]).reg 7 := ⟨_, step_after _, by decide⟩

/-- LdiThenPrnEmitsTheValue at 250, PushThenPopLosesOne at 251 and `sp` 1, CallThenRetResumesAfterTheCall at 253 and `sp` 254. -/
theorem witness_two_step_statements :
    (startAt 0xFA []).pc.toNat + 5 ≤ 255 ∧ 0 < ((startAt 0xFB []).setSp 1).sp.toNat ∧
    ((startAt 0xFB []).setSp 1).pc.toNat + 4 ≤ 255 ∧ (startAt 0xFD []).pc.toNat + 2 ≤ 255 ∧
    ((startAt 0xFD []).setSp 0xFE).sp.toNat < 255 := by decide

theorem witness_BytesDecodeExactlyToWhatTheyEncode :
    decodeBytes [0xA2, 0x06, 0xFF] = some (.mul 6) ∧ decodeBytes [0x82, 0x06] = none ∧ decodeBytes [] = none := by decide

theorem witness_LoaderWritesTheImageFromZero :
    ([0x01] : List Byte).length ≤ 256 ∧ ([] : List Byte).length ≤ 256 ∧ ∃ image : List Byte, 256 < image.length :=
  ⟨by decide, by decide, List.replicate 257 0, List.length_replicate ▸ (by decide : 256 < 257)⟩

end Sys2Proof.Tests
end

/-! The flags and the registers of 10_state.md: what an instruction writes and reads of them, and the two statements that say so. -/

namespace Sys2Proof.Machine

/-! ### Completion -/

/-- No effect but HLT's touches the run status. -/
theorem Effect.status_eq {i : Instr} {s t : State} (h : Effect i s t) (hi : i ≠ .hlt) : t.status = s.status := by
  cases i with
  | hlt => exact absurd rfl hi
  | ldi _ _ | prn _ | call _ | jmp _ => obtain ⟨r, rfl, h⟩ := h; simp [h]
  | mul _ | cmp _ => obtain ⟨r, n, -, -, -, rfl⟩ := h; rfl
  | push _ | pop _ => obtain ⟨r, -, -, -, rfl⟩ := h; rfl
  | ret => obtain ⟨-, rfl⟩ := h; rfl
  | jeq _ | jne _ => obtain ⟨r, -, ⟨-, rfl⟩ | ⟨-, -, rfl⟩⟩ := h <;> rfl

/-- An instruction that leaves the engine RUNNING has had its effect. -/
theorem effect_of_completes {i : Instr} {s t : State} (h : exec i s = .next t) (ht : t.status = .running) : Effect i s t := by
  rcases exec_cases h with he | ⟨c, -, rfl⟩
  · exact he
  · cases ht

/-! ### Flags -/

/-- CMP alone writes flags. -/
theorem Effect.flags_eq {i : Instr} {s t : State} (h : Effect i s t) (hi : i.op ≠ .cmp) : t.flags = s.flags := by
  cases i with
  | hlt => rw [show t = s.halt from h]; rfl
  | ldi _ _ | prn _ | call _ | jmp _ => obtain ⟨r, rfl, h⟩ := h; simp [h]
  | mul _ => obtain ⟨r, n, -, -, -, rfl⟩ := h; rfl
  | push _ | pop _ => obtain ⟨r, -, -, -, rfl⟩ := h; rfl
  | ret => obtain ⟨-, rfl⟩ := h; rfl
  | cmp _ => exact absurd rfl hi
  | jeq _ | jne _ => obtain ⟨r, -, ⟨-, rfl⟩ | ⟨-, -, rfl⟩⟩ := h <;> rfl

/-- A step that changes the flags executes a CMP. -/
theorem step_changes_flags {s t : State} (h : step s = .next t) (hne : t.flags ≠ s.flags) :
    s.status = .running ∧ dispatch (s.memRead s.pc) = some .cmp := by
  rcases step_cases h with ⟨-, rfl⟩ | ⟨hs, ⟨c, -, rfl⟩ | ⟨i, hf, hx⟩⟩
  · exact absurd rfl hne
  · exact absurd rfl hne
  · refine ⟨hs, ?_⟩
    rcases exec_cases hx with he | ⟨c, -, rfl⟩
    · have hop : i.op = .cmp := by_contra fun hop => hne (he.flags_eq hop)
      rw [(State.fetch_eq_ok.mp hf).1, hop, dispatch_opcode]
    · exact absurd rfl hne

/-- Setting a flag leaves it at 1. -/
theorem Flags.get_set_same (fl : Flags) (f : Flag) : (fl.set f).get f = true := by simp [Flags.get_set]

/-- Setting a flag keeps the other two. -/
theorem Flags.get_set_other (fl : Flags) {f k : Flag} (h : k ≠ f) : (fl.set f).get k = fl.get k := by
  simp [Flags.get_set, h.symm]

/-- An instruction whose behaviour cannot tell the flags `g` from those of `s`: it is no conditional jump, or E is the same. -/
def SameForFlags (i : Instr) (s : State) (g : Flags) : Prop :=
  (i.op ≠ .jeq ∧ i.op ≠ .jne) ∨ g.equal = s.flags.equal

/-- An effect but CMP's does not depend on the flags, up to a conditional jump's E, and carries them over. -/
theorem Effect.withFlags {i : Instr} {s t : State} {g : Flags} (h : Effect i s t) (hg : SameForFlags i s g)
    (hi : i.op ≠ .cmp) : Effect i { s with flags := g } { t with flags := g } := by
  cases i with
  | hlt => rw [show t = s.halt from h]; rfl
  | ldi _ _ | prn _ | call _ => obtain ⟨r, rfl, hp, rfl⟩ := h; exact ⟨r, rfl, hp, rfl⟩
  | mul _ => obtain ⟨r, n, rfl, hn, hp, rfl⟩ := h; exact ⟨r, n, rfl, hn, hp, rfl⟩
  | push _ | pop _ => obtain ⟨r, rfl, hsp, hp, rfl⟩ := h; exact ⟨r, rfl, hsp, hp, rfl⟩
  | ret => obtain ⟨hsp, rfl⟩ := h; exact ⟨hsp, rfl⟩
  | cmp _ => exact absurd rfl hi
  | jmp _ => obtain ⟨r, rfl, rfl⟩ := h; exact ⟨r, rfl, rfl⟩
  | jeq _ | jne _ =>
    have hE : g.equal = s.flags.equal := by simpa [SameForFlags, Instr.op] using hg
    obtain ⟨r, rfl, ⟨he, rfl⟩ | ⟨he, hp, rfl⟩⟩ := h
    · exact ⟨r, rfl, .inl ⟨hE.trans he, rfl⟩⟩
    · exact ⟨r, rfl, .inr ⟨hE.trans he, hp, rfl⟩⟩

/-- A fault does not depend on the flags, up to a conditional jump's E. -/
theorem fault_withFlags {i : Instr} {s : State} {c : Cause} {g : Flags} (h : FaultOf i s c) (hg : SameForFlags i s g) :
    FaultOf i { s with flags := g } c := by
  rcases hg with ⟨hjeq, hjne⟩ | hE
  · cases i with
    | jeq _ => exact absurd rfl hjeq
    | jne _ => exact absurd rfl hjne
    | _ => exact h
  · exact fault_congr (s := s) rfl rfl hE h

/-- The same of `exec`: from other flags it answers the same state with those flags, unless it is a CMP that completes. -/
theorem exec_withFlags {i : Instr} {s t : State} {g : Flags} (hs : s.status = .running) (h : exec i s = .next t)
    (hg : SameForFlags i s g) (hi : i.op ≠ .cmp ∨ t.status ≠ .running) :
    exec i { s with flags := g } = .next { t with flags := g } := by
  rcases exec_cases h with he | ⟨c, hc, rfl⟩
  · have hop : i.op ≠ .cmp := by
      refine hi.elim id fun ht hop => ht ?_
      rw [he.status_eq fun hhlt => by simp [hhlt, Instr.op] at hop, hs]
    exact exec_of_effect (he.withFlags hg hop)
  · exact exec_of_fault (fault_withFlags hc hg)

/-- A CMP that completes sets, from any flags, the one flag that the comparison names. -/
theorem cmp_completes_sets_one_flag {s t : State} {a : Byte} (h : exec (.cmp a) s = .next t) (ht : t.status = .running) :
    ∃ f : Flag, t.flags = s.flags.set f ∧
      ∀ g : Flags, exec (.cmp a) { s with flags := g } = .next { t with flags := g.set f } := by
  obtain ⟨r, n, rfl, hn, hp, rfl⟩ := effect_of_completes h ht
  exact ⟨_, rfl, fun g => exec_of_effect ⟨r, n, rfl, hn, hp, rfl⟩⟩

/-- JEQ where its successor exists: `x[r]` when E is 1, else the successor. -/
theorem exec_jeq (s : State) (r : RegIdx) (hp : s.pc.toNat + 2 ≤ 255) :
    exec (.jeq (regByte r)) s = .next { s with pc := if s.flags.equal then s.reg r else s.pc + 2 } := by
  apply exec_of_effect
  cases hE : s.flags.equal with
  | true => exact ⟨r, rfl, .inl ⟨hE, rfl⟩⟩
  | false => exact ⟨r, rfl, .inr ⟨hE, hp, rfl⟩⟩

/-- JNE where its successor exists: the successor when E is 1, else `x[r]`. -/
theorem exec_jne (s : State) (r : RegIdx) (hp : s.pc.toNat + 2 ≤ 255) :
    exec (.jne (regByte r)) s = .next { s with pc := if s.flags.equal then s.pc + 2 else s.reg r } := by
  apply exec_of_effect
  cases hE : s.flags.equal with
  | true => exact ⟨r, rfl, .inr ⟨hE, hp, rfl⟩⟩
  | false => exact ⟨r, rfl, .inl ⟨hE, rfl⟩⟩

/-- Settles O36: CMP's effect is to set one flag; every other effect and every fault carries the flags over. -/
theorem flagsAreSetByCmpAndReadOnlyByConditionalJumps : Obligations.FlagsAreSetByCmpAndReadOnlyByConditionalJumps := by
  refine ⟨rfl, fun s t => step_changes_flags, fun s t a _ h ht => ?_,
    fun s r hp => ⟨exec_jeq s r hp, exec_jne s r hp⟩, fun i s t g hs h hg hi => exec_withFlags hs h hg hi⟩
  obtain ⟨f, hf, hg⟩ := cmp_completes_sets_one_flag h ht
  refine ⟨f, ⟨hf ▸ Flags.get_set_same _ f, fun k hk => hf ▸ Flags.get_set_other _ hk⟩, fun g => ?_⟩
  exact ⟨g.set f, hg g, Flags.get_set_same g f, fun k hk => Flags.get_set_other g hk⟩

/-! ### Registers written -/

theorem State.setReg_setReg_same (s : State) (r : RegIdx) (v w : Byte) : (s.setReg r v).setReg r w = s.setReg r w := by
  simp [State.setReg]

theorem State.setReg_comm (s : State) {r q : RegIdx} (v w : Byte) (h : q ≠ r) :
    (s.setReg r v).setReg q w = (s.setReg q w).setReg r v := by
  simp only [State.setReg]
  rw [Vector.set_comm _ _ fun hval => h (Fin.ext hval).symm]

theorem ne_of_not_dest {r q : RegIdx} (h : some (regByte r) ≠ some (regByte q)) : q ≠ r :=
  fun hq => h (hq ▸ rfl)

/-- An effect keeps every register but the destination. -/
theorem Effect.reg_eq {i : Instr} {s t : State} {q : RegIdx} (h : Effect i s t) (hd : destReg i ≠ some (regByte q)) :
    t.reg q = s.reg q := by
  cases i with
  | hlt => rw [show t = s.halt from h]; rfl
  | prn _ | call _ => obtain ⟨r, -, -, rfl⟩ := h; rfl
  | ret => obtain ⟨-, rfl⟩ := h; rfl
  | cmp _ => obtain ⟨r, n, -, -, -, rfl⟩ := h; rfl
  | jmp _ => obtain ⟨r, -, rfl⟩ := h; rfl
  | jeq _ | jne _ => obtain ⟨r, -, ⟨-, rfl⟩ | ⟨-, -, rfl⟩⟩ := h <;> rfl
  | ldi _ _ =>
    obtain ⟨r, rfl, -, rfl⟩ := h
    exact State.setReg_reg_other _ _ (ne_of_not_dest hd)
  | mul _ =>
    obtain ⟨r, n, rfl, -, -, rfl⟩ := h
    exact State.setReg_reg_other _ _ (ne_of_not_dest hd)
  | push _ =>
    obtain ⟨r, rfl, -, -, rfl⟩ := h
    exact State.setReg_reg_other (s.setSp _) _ (ne_of_not_dest hd)
  | pop _ =>
    obtain ⟨r, rfl, -, -, rfl⟩ := h
    exact State.setReg_reg_other _ _ (ne_of_not_dest hd)

/-- No instruction changes a register that is not its destination, whether it completes or faults. -/
theorem exec_reg_eq {i : Instr} {s t : State} {q : RegIdx} (h : exec i s = .next t) (hd : destReg i ≠ some (regByte q)) :
    t.reg q = s.reg q := by
  rcases exec_cases h with he | ⟨c, -, rfl⟩
  · exact he.reg_eq hd
  · rfl

/-- A PUSH that completes leaves its register 1 lower, where that does not wrap. -/
theorem push_completes_lowers {s t : State} {r : RegIdx} (h : exec (.push (regByte r)) s = .next t)
    (ht : t.status = .running) (hr : 0 < (s.reg r).toNat) : (t.reg r).toNat + 1 = (s.reg r).toNat := by
  obtain ⟨r', hrr, -, -, rfl⟩ := effect_of_completes h ht
  obtain rfl := regByte_inj.mp hrr
  have hval : (s.reg r - 1).toNat = (s.reg r).toNat - 1 := by
    exact BitVec.toNat_sub_of_le (BitVec.le_def.mpr (Nat.succ_le_of_lt hr))
  simp only [State.setPc_reg, State.memWrite_reg, State.setReg_reg_same, pushValue_eq, hval]
  omega

/-! ### Legal operands, and a family of states to run them in -/

theorem exists_pair_of_pairOk {a : Byte} (h : pairOk a = true) :
    ∃ r n : RegIdx, a = regByte r ∧ n.val = r.val + 1 := by
  have ha : a.toNat ≤ 6 := of_decide_eq_true h
  obtain ⟨r, rfl⟩ := exists_regByte (by omega : a.toNat ≤ 7)
  rw [regByte_toNat] at ha
  exact ⟨r, ⟨r.val + 1, by omega⟩, rfl, rfl⟩

/-- The reset state with the value `c` in every register and the flag E at `e`. -/
def uniform (c : Byte) (e : Bool) : State :=
  { State.reset with regs := Vector.replicate 8 c, flags := ⟨false, false, e⟩ }

@[simp] theorem uniform_reg (c : Byte) (e : Bool) (q : RegIdx) : (uniform c e).reg q = c := by
  simp [uniform, State.reg]
@[simp] theorem uniform_memRead (c : Byte) (e : Bool) (a : Byte) : (uniform c e).memRead a = 0 := rfl
@[simp] theorem uniform_pc (c : Byte) (e : Bool) : (uniform c e).pc = 0 := rfl
@[simp] theorem uniform_sp (c : Byte) (e : Bool) : (uniform c e).sp = 0xF4 := rfl
@[simp] theorem uniform_flags (c : Byte) (e : Bool) : (uniform c e).flags = ⟨false, false, e⟩ := rfl
@[simp] theorem uniform_status (c : Byte) (e : Bool) : (uniform c e).status = .running := rfl

/-- Every destination is written: from a suitable uniform state the register changes. -/
theorem exists_effect_changes_dest {i : Instr} {q : RegIdx} (hwf : i.wf = true) (hd : destReg i = some (regByte q)) :
    ∃ (c : Byte) (t : State), Effect i (uniform c false) t ∧ t.reg q ≠ c := by
  cases i with
  | hlt | prn _ | call _ | ret | cmp _ | jmp _ | jeq _ | jne _ => cases hd
  | ldi a v =>
    cases hd
    exact ⟨v + 1, _, ⟨q, rfl, by simp, rfl⟩, by simp⟩
  | mul a =>
    cases hd
    obtain ⟨r, n, hr, hn⟩ := exists_pair_of_pairOk hwf
    obtain rfl := regByte_inj.mp hr
    exact ⟨2, _, ⟨q, n, rfl, hn, by simp, rfl⟩, by simp [aluProduct]⟩
  | push a =>
    cases hd
    exact ⟨2, _, ⟨q, rfl, by simp, by simp, rfl⟩, by simp [pushValue_eq]⟩
  | pop a =>
    cases hd
    exact ⟨2, _, ⟨q, rfl, by simp, by simp, rfl⟩, by simp⟩

/-! ### Registers read -/

theorem ne_of_not_read {r q : RegIdx} (h : q.val ∉ [(regByte r).toNat]) : r ≠ q := by
  rintro rfl; simp at h

theorem pair_ne_of_not_read {r n q : RegIdx} (hn : n.val = r.val + 1)
    (h : q.val ∉ [(regByte r).toNat, (regByte r).toNat + 1]) : r ≠ q ∧ n ≠ q := by
  constructor <;> rintro rfl <;> simp [hn] at h

theorem eq_regByte_of_read {a : Byte} {q : RegIdx} (h : q.val ∈ [a.toNat]) : a = regByte q := by
  rw [← BitVec.toNat_inj, regByte_toNat, List.mem_singleton.mp h]

theorem eq_or_eq_of_pair_read {r n q : RegIdx} (hn : n.val = r.val + 1)
    (h : q.val ∈ [(regByte r).toNat, (regByte r).toNat + 1]) : q = r ∨ q = n := by
  simpa [Fin.ext_iff, hn] using h

/-- Another value in a destination that is not read is overwritten: the effect is the same. -/
theorem Effect.setReg_dest {i : Instr} {s t : State} {q : RegIdx} (v : Byte) (h : Effect i s t)
    (hr : q.val ∉ readRegs i s.flags.equal) (hd : destReg i = some (regByte q)) : Effect i (s.setReg q v) t := by
  cases i with
  | hlt | prn _ | call _ | ret | cmp _ | jmp _ | jeq _ | jne _ => cases hd
  | mul _ | push _ => cases hd; simp [readRegs] at hr
  | ldi _ w =>
    obtain ⟨r, rfl, hp, rfl⟩ := h
    obtain rfl : r = q := regByte_inj.mp (Option.some.inj hd)
    exact ⟨r, rfl, hp, by rw [State.setReg_setReg_same]; rfl⟩
  | pop _ =>
    obtain ⟨r, rfl, hsp, hp, rfl⟩ := h
    obtain rfl : r = q := regByte_inj.mp (Option.some.inj hd)
    exact ⟨r, rfl, hsp, hp, by rw [State.setReg_setReg_same]; rfl⟩

/-- Another value in a register that is neither read nor written stays there, and the effect is the same else. -/
theorem Effect.setReg_other {i : Instr} {s t : State} {q : RegIdx} (v : Byte) (h : Effect i s t)
    (hr : q.val ∉ readRegs i s.flags.equal) (hd : destReg i ≠ some (regByte q)) :
    Effect i (s.setReg q v) (t.setReg q v) := by
  cases i with
  | hlt => rw [show t = s.halt from h]; rfl
  | ret => obtain ⟨hsp, rfl⟩ := h; exact ⟨hsp, rfl⟩
  | ldi _ w =>
    obtain ⟨r, rfl, hp, rfl⟩ := h
    have hq := ne_of_not_dest hd
    exact ⟨r, rfl, hp, congrArg (State.setPc · _) (s.setReg_comm _ v hq)⟩
  | pop _ =>
    obtain ⟨r, rfl, hsp, hp, rfl⟩ := h
    have hq := ne_of_not_dest hd
    exact ⟨r, rfl, hsp, hp, congrArg (fun u => (State.setSp u _).setPc _) (s.setReg_comm _ v hq)⟩
  | prn _ | call _ =>
    obtain ⟨r, rfl, hp, rfl⟩ := h
    have hq := ne_of_not_read hr
    exact ⟨r, rfl, hp, by rw [State.setReg_reg_other s v hq]; rfl⟩
  | jmp _ =>
    obtain ⟨r, rfl, rfl⟩ := h
    have hq := ne_of_not_read hr
    exact ⟨r, rfl, by rw [State.setReg_reg_other s v hq]; rfl⟩
  | mul _ =>
    obtain ⟨r, n, rfl, hn, hp, rfl⟩ := h
    obtain ⟨hrq, hnq⟩ := pair_ne_of_not_read hn hr
    refine ⟨r, n, rfl, hn, hp, ?_⟩
    rw [State.setReg_reg_other s v hrq, State.setReg_reg_other s v hnq]
    exact congrArg (State.setPc · _) (s.setReg_comm _ v hrq.symm)
  | cmp _ =>
    obtain ⟨r, n, rfl, hn, hp, rfl⟩ := h
    obtain ⟨hrq, hnq⟩ := pair_ne_of_not_read hn hr
    refine ⟨r, n, rfl, hn, hp, ?_⟩
    rw [State.setReg_reg_other s v hrq, State.setReg_reg_other s v hnq]
    rfl
  | push _ =>
    obtain ⟨r, rfl, hsp, hp, rfl⟩ := h
    have hq := ne_of_not_read hr
    refine ⟨r, rfl, hsp, hp, ?_⟩
    rw [State.setReg_reg_other s v hq]
    exact congrArg (fun u => ((State.setSp u _).memWrite _ _).setPc _) (s.setReg_comm _ v hq.symm)
  | jeq _ | jne _ =>
    obtain ⟨r, rfl, ⟨he, rfl⟩ | ⟨he, hp, rfl⟩⟩ := h
    · have hq : r ≠ q := by rintro rfl; simp [readRegs, he] at hr
      exact ⟨r, rfl, .inl ⟨he, by rw [State.setReg_reg_other s v hq]; rfl⟩⟩
    · exact ⟨r, rfl, .inr ⟨he, hp, rfl⟩⟩

/-- An instruction that does not read `q` and does not write it (or does not complete) keeps another value put there, and
does the same else. -/
theorem exec_setReg_unwritten {i : Instr} {s t : State} {q : RegIdx} (v : Byte) (hs : s.status = .running)
    (h : exec i s = .next t) (hr : q.val ∉ readRegs i s.flags.equal)
    (hd : t.status ≠ .running ∨ destReg i ≠ some (regByte q)) : exec i (s.setReg q v) = .next (t.setReg q v) := by
  rcases exec_cases h with he | ⟨c, hc, rfl⟩
  · have hdest : destReg i ≠ some (regByte q) := by
      refine hd.elim (fun ht hdest => ht ?_) id
      rw [he.status_eq fun hhlt => by simp [hhlt, destReg] at hdest, hs]
    exact exec_of_effect (he.setReg_other v hr hdest)
  · exact exec_of_fault (fault_congr (s := s) rfl rfl rfl hc)

/-- What tells that two completed executions of `i` went differently, apart from registers that `i` does not write. -/
def OutcomeDiffers (i : Instr) (t u : State) : Prop :=
  u.console ≠ t.console ∨ u.pc ≠ t.pc ∨ u.flags ≠ t.flags ∨ u.mem ≠ t.mem ∨
    ∃ d, destReg i = some (regByte d) ∧ u.reg d ≠ t.reg d

/-- CMP of two registers, one of which holds 2 and all others 1, sets another flag than CMP of 1 with 1. -/
theorem uniform_compare_differs {r n q : RegIdx} (e : Bool) (hn : n.val = r.val + 1) (hq : q = r ∨ q = n) :
    (uniform 1 e).flags.set (compareFlag (((uniform 1 e).setReg q 2).reg r) (((uniform 1 e).setReg q 2).reg n)) ≠
      (uniform 1 e).flags.set (compareFlag ((uniform 1 e).reg r) ((uniform 1 e).reg n)) := by
  have hrn : r ≠ n := by rintro rfl; omega
  rcases hq with rfl | rfl
  · simp [State.setReg_reg_other _ _ hrn.symm, compareFlag, Flags.set]
  · simp [State.setReg_reg_other _ _ hrn, compareFlag, Flags.set]

/-- MUL of two registers, one of which holds 2 and the other 1, gives another product than 1. -/
theorem uniform_product_differs {r n q : RegIdx} (e : Bool) (hn : n.val = r.val + 1) (hq : q = r ∨ q = n) :
    aluProduct (((uniform 1 e).setReg q 2).reg r) (((uniform 1 e).setReg q 2).reg n) ≠
      aluProduct ((uniform 1 e).reg r) ((uniform 1 e).reg n) := by
  have hrn : r ≠ n := by rintro rfl; omega
  rcases hq with rfl | rfl
  · simp [State.setReg_reg_other _ _ hrn.symm, aluProduct]
  · simp [State.setReg_reg_other _ _ hrn, aluProduct]

/-- Every listed register is read: with all registers at 1, a 2 in that one shows in the outcome. -/
theorem exists_effects_differ_of_read {i : Instr} {e : Bool} {q : RegIdx} (hwf : i.wf = true)
    (hq : q.val ∈ readRegs i e) : ∃ t u : State, Effect i (uniform 1 e) t ∧
      Effect i ((uniform 1 e).setReg q 2) u ∧ OutcomeDiffers i t u := by
  cases i with
  | hlt | ldi _ _ | pop _ | ret => simp [readRegs] at hq
  | prn a =>
    obtain rfl := eq_regByte_of_read hq
    exact ⟨_, _, ⟨q, rfl, by simp, rfl⟩, ⟨q, rfl, by simp, rfl⟩, .inl (by simp)⟩
  | call a =>
    obtain rfl := eq_regByte_of_read hq
    exact ⟨_, _, ⟨q, rfl, by simp, rfl⟩, ⟨q, rfl, by simp, rfl⟩, .inr (.inl (by simp))⟩
  | jmp a =>
    obtain rfl := eq_regByte_of_read hq
    exact ⟨_, _, ⟨q, rfl, rfl⟩, ⟨q, rfl, rfl⟩, .inr (.inl (by simp))⟩
  | jeq a =>
    cases e with
    | false => simp [readRegs] at hq
    | true =>
      obtain rfl := eq_regByte_of_read hq
      exact ⟨_, _, ⟨q, rfl, .inl ⟨rfl, rfl⟩⟩, ⟨q, rfl, .inl ⟨rfl, rfl⟩⟩, .inr (.inl (by simp))⟩
  | jne a =>
    cases e with
    | true => simp [readRegs] at hq
    | false =>
      obtain rfl := eq_regByte_of_read hq
      exact ⟨_, _, ⟨q, rfl, .inl ⟨rfl, rfl⟩⟩, ⟨q, rfl, .inl ⟨rfl, rfl⟩⟩, .inr (.inl (by simp))⟩
  | push a =>
    obtain rfl := eq_regByte_of_read hq
    refine ⟨_, _, ⟨q, rfl, by simp, by simp, rfl⟩, ⟨q, rfl, by simp, by simp, rfl⟩, ?_⟩
    exact .inr (.inr (.inr (.inr ⟨q, rfl, by simp [pushValue_eq]⟩)))
  | mul a =>
    obtain ⟨r, n, rfl, hn⟩ := exists_pair_of_pairOk hwf
    have hq := eq_or_eq_of_pair_read hn hq
    refine ⟨_, _, ⟨r, n, rfl, hn, by simp, rfl⟩, ⟨r, n, rfl, hn, by simp, rfl⟩, ?_⟩
    refine .inr (.inr (.inr (.inr ⟨r, rfl, ?_⟩)))
    simpa only [State.setPc_reg, State.setReg_reg_same] using uniform_product_differs e hn hq
  | cmp a =>
    obtain ⟨r, n, rfl, hn⟩ := exists_pair_of_pairOk hwf
    have hq := eq_or_eq_of_pair_read hn hq
    exact ⟨_, _, ⟨r, n, rfl, hn, by simp, rfl⟩, ⟨r, n, rfl, hn, by simp, rfl⟩,
      .inr (.inr (.inl (uniform_compare_differs e hn hq)))⟩

/-- Settles O30: the frame of each effect gives what is not written and not read; a uniform state shows each write and
each read. -/
theorem registersReadAndWritten : Obligations.RegistersReadAndWritten := by
  refine ⟨fun i s t q => exec_reg_eq, fun i q hwf hd => ?_, fun s t r _ => push_completes_lowers,
    fun i s t q v hs h hr => ⟨fun ht hd => ?_, exec_setReg_unwritten v hs h hr⟩, fun i e q hwf hq => ?_⟩
  · obtain ⟨c, t, ht, hne⟩ := exists_effect_changes_dest hwf hd
    have hi : i ≠ .hlt := by rintro rfl; cases hd
    exact ⟨uniform c false, t, rfl, exec_of_effect ht, ht.status_eq hi, by rwa [uniform_reg]⟩
  · exact exec_of_effect ((effect_of_completes h ht).setReg_dest v hr hd)
  · obtain ⟨t, u, ht, hu, hne⟩ := exists_effects_differ_of_read hwf hq
    have hi : i ≠ .hlt := by rintro rfl; simp [readRegs] at hq
    exact ⟨uniform 1 e, t, u, 2, rfl, rfl, exec_of_effect ht, ht.status_eq hi, exec_of_effect hu, hu.status_eq hi, hne⟩

end Sys2Proof.Machine

/-! The unsupported ALU tag of 43_alu.md: what it does at the ALU's own interface, and that no step of a program raises it. -/

namespace Sys2Proof.Machine

/-! ### At the ALU's own interface -/

/-- The tag is refused before the indices are looked at (R138). -/
@[simp] theorem aluChecked_other (name : String) (ia ib : Nat) (s : State) :
    aluChecked (.other name) ia ib s = .error (.unsupportedAluOp name) := rfl

theorem aluDirect_other {s : State} (name : String) (ia ib : Nat) (hs : s.status = .running) :
    aluDirect (.other name) ia ib s = s.raise (.unsupportedAluOp name) :=
  aluDirect_of_error hs (aluChecked_other name ia ib s)

/-- A fault ends the run: FAULTED is absorbing (R33, R201). -/
theorem step_raise (s : State) (c : Cause) : step (s.raise c) = .next (s.raise c) :=
  step_stopped (s := s.raise c) (by simp [State.raise])

theorem AluTag.ofName_other {name : String} (hadd : name ≠ "ADD") (hmul : name ≠ "MUL") (hcmp : name ≠ "CMP") :
    AluTag.ofName name = .other name := by
  rw [AluTag.ofName, if_neg hadd, if_neg hmul, if_neg hcmp]

/-! ### In a program -/

/-- The checks of an instruction are of its register indices and its addresses (R96, R97). -/
theorem FaultOf.cause_cases {i : Instr} {s : State} {c : Cause} (h : FaultOf i s c) :
    (∃ n, c = .registerIndex n) ∨ ∃ v, c = .addressRange v := by
  cases i with
  | hlt => exact h.elim
  | ldi _ _ | prn _ | call _ => exact h.imp (fun h => ⟨_, h.2⟩) fun ⟨_, _, hc⟩ => ⟨_, hc⟩
  | mul _ | cmp _ =>
    rcases h with ⟨-, hc⟩ | ⟨-, hc⟩ | ⟨-, -, hc⟩
    · exact .inl ⟨_, hc⟩
    · exact .inl ⟨_, hc⟩
    · exact .inr ⟨_, hc⟩
  | push _ | pop _ =>
    rcases h with ⟨-, hc⟩ | ⟨-, -, hc⟩ | ⟨-, -, -, hc⟩
    · exact .inl ⟨_, hc⟩
    · exact .inr ⟨_, hc⟩
    · exact .inr ⟨_, hc⟩
  | ret => exact .inr ⟨_, h.2⟩
  | jmp _ => exact .inl ⟨_, h.2⟩
  | jeq _ | jne _ => exact h.imp (fun h => ⟨_, h.2⟩) fun ⟨_, _, _, hc⟩ => ⟨_, hc⟩

theorem not_faultOf_unsupportedAluOp {i : Instr} {s : State} {name : String} : ¬ FaultOf i s (.unsupportedAluOp name) := by
  intro h
  rcases h.cause_cases with ⟨_, hc⟩ | ⟨_, hc⟩ <;> cases hc

/-- The fetch raises IllegalOpcode and AddressRange alone (R94, R96 (a), (b)). -/
theorem State.fetch_ne_unsupportedAluOp {s : State} {name : String} : s.fetch ≠ .error (.unsupportedAluOp name) := by
  intro h
  obtain ⟨e, -, hc⟩ := State.fetch_error_iff.mp h
  cases e <;> cases hc

/-- An effect does not fault. -/
theorem Effect.status_ne_faulted {i : Instr} {s t : State} (h : Effect i s t) (hs : s.status = .running) (c : Cause) :
    t.status ≠ .faulted c := by
  by_cases hi : i = .hlt
  · subst hi
    rw [show t = s.halt from h]
    exact nofun
  · rw [h.status_eq hi, hs]
    exact nofun

/-- A step that ends FAULTED has taken a fault of the fetch or of the instruction. -/
theorem step_fault_cases {s t : State} {c : Cause} (hs : s.status = .running) (h : step s = .next t)
    (ht : t.status = .faulted c) : s.fetch = .error c ∨ ∃ i, s.fetch = .ok i ∧ FaultOf i s c := by
  rcases step_cases h with ⟨hne, -⟩ | ⟨-, ⟨d, hf, rfl⟩ | ⟨i, hf, hx⟩⟩
  · exact absurd hs hne
  · obtain rfl : d = c := RunStatus.faulted.inj ht
    exact .inl hf
  · rcases exec_cases hx with he | ⟨d, hd, rfl⟩
    · exact absurd ht (he.status_ne_faulted hs c)
    · obtain rfl : d = c := RunStatus.faulted.inj ht
      exact .inr ⟨i, hf, hd⟩

/-- Settles O41: the tag is the first check at the ALU's interface, and neither the fetch nor any instruction can raise its
fault. -/
theorem unsupportedAluTagIsFatalAndUnreachable : Obligations.UnsupportedAluTagIsFatalAndUnreachable := by
  refine ⟨fun name ia ib s hs => ?_, fun name => AluTag.ofName_other, fun s t name hs h ht => ?_⟩
  · rw [aluDirect_other name ia ib hs]
    exact ⟨rfl, step_raise s _⟩
  · rcases step_fault_cases hs h ht with hf | ⟨i, -, hc⟩
    · exact State.fetch_ne_unsupportedAluOp hf
    · exact not_faultOf_unsupportedAluOp hc

end Sys2Proof.Machine

/-! What one step does, with the fetched instruction at hand, and the frame of memory (10_state.md section 2, 20_memory.md). -/

namespace Sys2Proof.Machine

/-! ### One step -/

/-- What a step does: nothing, a fault, or the effect of the instruction that was fetched. -/
theorem step_effect_cases {s t : State} (h : step s = .next t) :
    t = s ∨ (s.status = .running ∧ ((∃ c, t = s.raise c) ∨ ∃ i, s.fetch = .ok i ∧ Effect i s t)) := by
  rcases step_cases h with ⟨-, rfl⟩ | ⟨hs, ⟨c, -, rfl⟩ | ⟨i, hf, hx⟩⟩
  · exact .inl rfl
  · exact .inr ⟨hs, .inl ⟨c, rfl⟩⟩
  · rcases exec_cases hx with he | ⟨c, -, rfl⟩
    · exact .inr ⟨hs, .inr ⟨i, hf, he⟩⟩
    · exact .inr ⟨hs, .inl ⟨c, rfl⟩⟩

/-- The fetched instruction's opcode byte stands at `pc`. -/
theorem State.fetch_opcode {s : State} {i : Instr} (h : s.fetch = .ok i) : s.memRead s.pc = i.op.opcode := by
  obtain ⟨hop, -, -⟩ := State.fetch_eq_ok.mp h
  exact hop

/-- The fetched instruction's operand A stands in the cell after `pc`, which exists. -/
theorem State.fetch_operandA {s : State} {i : Instr} {a : Byte} (h : s.fetch = .ok i) (ha : i.operandA = some a) :
    s.pc.toNat + 1 ≤ 255 ∧ s.memRead (s.pc + 1) = a := by
  obtain ⟨-, hA, -⟩ := State.fetch_eq_ok.mp h
  exact hA a ha

/-! ### Memory -/

/-- No effect but PUSH's and CALL's touches memory. -/
theorem Effect.mem_eq {i : Instr} {s t : State} (h : Effect i s t) (hpush : i.op ≠ .push) (hcall : i.op ≠ .call) :
    t.mem = s.mem := by
  cases i with
  | hlt => rw [show t = s.halt from h]; rfl
  | ldi _ _ | prn _ => obtain ⟨r, -, -, rfl⟩ := h; rfl
  | mul _ | cmp _ => obtain ⟨r, n, -, -, -, rfl⟩ := h; rfl
  | pop _ => obtain ⟨r, -, -, -, rfl⟩ := h; rfl
  | ret => obtain ⟨-, rfl⟩ := h; rfl
  | jmp _ => obtain ⟨r, -, rfl⟩ := h; rfl
  | jeq _ | jne _ => obtain ⟨r, -, ⟨-, rfl⟩ | ⟨-, -, rfl⟩⟩ := h <;> rfl
  | push _ => exact absurd rfl hpush
  | call _ => exact absurd rfl hcall

/-- PUSH writes one cell, at the new stack pointer, which is one below the old one. -/
theorem Effect.push_mem {a : Byte} {s t : State} (h : Effect (.push a) s t) :
    0 < s.sp.toNat ∧ t.sp = s.sp - 1 ∧ ∃ v, t.mem = (s.memWrite t.sp v).mem := by
  obtain ⟨r, -, hsp, -, rfl⟩ := h
  exact ⟨hsp, rfl, _, rfl⟩

/-- CALL writes one cell, at the stack pointer, which stays. -/
theorem Effect.call_mem {a : Byte} {s t : State} (h : Effect (.call a) s t) :
    t.sp = s.sp ∧ ∃ v, t.mem = (s.memWrite s.sp v).mem := by
  obtain ⟨r, -, -, rfl⟩ := h
  exact ⟨rfl, _, rfl⟩

/-- States with the same memory read alike. -/
theorem State.memRead_congr {s t : State} (h : t.mem = s.mem) (b : Byte) : t.memRead b = s.memRead b :=
  congrArg (Memory.read · b.toNat) h

/-- Whatever an effect does to memory is a write of one cell or nothing. -/
theorem Effect.mem_cases {i : Instr} {s t : State} (h : Effect i s t) :
    t.mem = s.mem ∨ ∃ a v, t.mem = (s.memWrite a v).mem := by
  cases i with
  | push _ =>
    obtain ⟨-, -, v, hm⟩ := h.push_mem
    exact .inr ⟨_, v, hm⟩
  | call _ =>
    obtain ⟨-, v, hm⟩ := h.call_mem
    exact .inr ⟨_, v, hm⟩
  | _ => exact .inl (h.mem_eq nofun nofun)

/-- Settles O33: a step leaves memory or writes one cell of it, and a write keeps the canonical form. -/
theorem stepKeepsMemoryCanonical : Obligations.StepKeepsMemoryCanonical := by
  intro s t hs h
  rcases step_effect_cases h with rfl | ⟨-, ⟨c, rfl⟩ | ⟨i, -, he⟩⟩
  · exact hs
  · exact hs
  · unfold State.Inv
    rcases he.mem_cases with hm | ⟨a, v, hm⟩
    · rw [hm]; exact hs
    · rw [hm]; exact State.memWrite_wf s a v hs

/-- Settles O32: the reset memory lists no cell. -/
theorem resetMemoryIsCanonical : Obligations.ResetMemoryIsCanonical :=
  ⟨List.Pairwise.nil, nofun⟩

/-- Settles O26: an effect without a store and a fault both leave memory as it was. -/
theorem frameOfMemoryWithoutStore : Obligations.FrameOfMemoryWithoutStore := by
  intro i s t b hpush hcall h
  rcases exec_cases h with he | ⟨c, -, rfl⟩
  · exact State.memRead_congr (he.mem_eq hpush hcall) b
  · rfl

/-- Settles O27: the one cell PUSH writes is at the new stack pointer; without one it faults. -/
theorem frameOfMemoryUnderPush : Obligations.FrameOfMemoryUnderPush := by
  intro a s t h
  rcases exec_cases h with he | ⟨c, -, rfl⟩
  · obtain ⟨hsp, htsp, v, hm⟩ := he.push_mem
    have hdec : s.spDec = .ok t.sp := htsp ▸ State.spDec_ok hsp
    refine ⟨fun p hp b hb => ?_, fun c hc => by simp [hdec] at hc⟩
    obtain rfl : t.sp = p := Except.ok.inj (hdec.symm.trans hp)
    rw [State.memRead_congr hm, State.memWrite_memRead_other s v hb]
  · exact ⟨fun _ _ _ _ => rfl, fun _ _ _ => rfl⟩

/-- Settles O28: the one cell CALL writes is at the stack pointer. -/
theorem frameOfMemoryUnderCall : Obligations.FrameOfMemoryUnderCall := by
  intro a s t h b hb
  rcases exec_cases h with he | ⟨c, -, rfl⟩
  · obtain ⟨-, v, hm⟩ := he.call_mem
    rw [State.memRead_congr hm, State.memWrite_memRead_other s v hb]
  · rfl

/-- A byte above 0 is 1 above its predecessor. -/
theorem byte_sub_one_toNat {b : Byte} (h : 0 < b.toNat) : (b - 1).toNat + 1 = b.toNat := by
  have hval : (b - 1).toNat = b.toNat - 1 := BitVec.toNat_sub_of_le (BitVec.le_def.mpr (Nat.succ_le_of_lt h))
  omega

/-- Settles O34: only the effects of PUSH and CALL write memory, each in one cell. -/
theorem onlyPushAndCallWriteMemory : Obligations.OnlyPushAndCallWriteMemory := by
  intro s t b h hne
  rcases step_effect_cases h with rfl | ⟨hs, ⟨c, rfl⟩ | ⟨i, hf, he⟩⟩
  · exact absurd rfl hne
  · exact absurd rfl hne
  · refine ⟨hs, ?_⟩
    have hop := State.fetch_opcode hf
    cases i with
    | push a =>
      obtain ⟨hsp, htsp, v, hm⟩ := he.push_mem
      refine .inl ⟨hop, htsp ▸ byte_sub_one_toNat hsp, by_contra fun hb => hne ?_⟩
      rw [State.memRead_congr hm, State.memWrite_memRead_other s v hb]
    | call a =>
      obtain ⟨htsp, v, hm⟩ := he.call_mem
      refine .inr ⟨hop, htsp, by_contra fun hb => hne ?_⟩
      rw [State.memRead_congr hm, State.memWrite_memRead_other s v hb]
    | _ => exact absurd (State.memRead_congr (he.mem_eq nofun nofun) b) hne

/-- Settles O31: the laws of a cell write, and the cells that PUSH and CALL have written when they complete. -/
theorem memoryWriteThenRead : Obligations.MemoryWriteThenRead := by
  refine ⟨fun s a v => ⟨State.memWrite_memRead_same s a v, fun b => State.memWrite_memRead_other s v,
    rfl, rfl, rfl, rfl, rfl, rfl⟩, fun s t r _ h ht => ?_, fun s t r _ h ht => ?_⟩
  · obtain ⟨r', hr, -, -, rfl⟩ := effect_of_completes h ht
    obtain rfl := regByte_inj.mp hr
    simp
  · obtain ⟨r', -, hp, rfl⟩ := effect_of_completes h ht
    rw [State.setPc_memRead, State.memWrite_memRead_same]
    exact byte_add_toNat hp

end Sys2Proof.Machine

/-! The decoder read in both directions: which bytes decode to an instruction (30_encoding.md), and why a fetch is refused. -/

namespace Sys2Proof

/-- The operand bytes that an instruction reads, in the order they stand after the opcode (R92, R95). -/
def Instr.readOperands : Instr → List Byte
  | .hlt => []
  | .ldi r v => [r, v]
  | .prn r => [r]
  | .mul r => [r]
  | .push r => [r]
  | .pop r => [r]
  | .call r => [r]
  | .ret => []
  | .cmp r => [r]
  | .jmp r => [r]
  | .jeq r => [r]
  | .jne r => [r]

/-- The bytes of an encoding that the engine reads are the opcode and these operands. -/
theorem encode_take_read (i : Instr) :
    (encode i).take (1 + i.op.readsA.toNat + i.op.readsB.toNat) = i.op.opcode :: i.readOperands := by
  cases i <;> rfl

/-- An instruction's encoding begins with the bytes that are read. -/
theorem read_prefix_encode (i : Instr) : i.op.opcode :: i.readOperands <+: encode i :=
  encode_take_read i ▸ List.take_prefix _ _

/-- Behind its opcode byte, an instruction is decoded from its operands, whatever follows them. -/
theorem decode_readOperands (i : Instr) (rest : List Byte) : decode i.op.opcode (i.readOperands ++ rest) = .ok i := by
  rw [decode, dispatch_opcode]
  cases i <;> rfl

/-- Bytes that decode to an instruction begin with its operands. -/
theorem readOperands_prefix_of_decode {op : Byte} {bs : List Byte} {i : Instr} (h : decode op bs = .ok i) :
    i.readOperands <+: bs := by
  obtain rfl := decode_opcode h
  rw [decode, dispatch_opcode] at h
  cases i with
  | hlt | ret => exact List.nil_prefix
  | ldi r v =>
    obtain ⟨a, b, rest, rfl, hi⟩ := decodeAB_ok.mp h
    cases hi
    exact ⟨rest, rfl⟩
  | prn r | mul r | push r | pop r | call r | cmp r | jmp r | jeq r | jne r =>
    obtain ⟨a, rest, rfl, hi⟩ := decodeA_ok.mp h
    cases hi
    exact ⟨rest, rfl⟩

/-- The decoder, whole: it answers `i` exactly for `i`'s opcode byte followed by the operands `i` reads. -/
theorem decode_ok_iff {op : Byte} {bs : List Byte} {i : Instr} :
    decode op bs = .ok i ↔ op = i.op.opcode ∧ i.readOperands <+: bs := by
  constructor
  · exact fun h => ⟨decode_opcode h, readOperands_prefix_of_decode h⟩
  · rintro ⟨rfl, rest, rfl⟩
    exact decode_readOperands i rest

theorem decodeBytes_cons {op : Byte} {bs : List Byte} {i : Instr} :
    decodeBytes (op :: bs) = some i ↔ decode op bs = .ok i := by
  cases h : decode op bs <;> simp [decodeBytes, h, Except.toOption]

/-- Settles O53: the decoder answers an instruction exactly for its opcode and the operands that it reads. -/
theorem bytesDecodeExactlyToWhatTheyEncode : Obligations.BytesDecodeExactlyToWhatTheyEncode := by
  intro bs i
  rw [encode_take_read]
  cases bs with
  | nil => simp [decodeBytes]
  | cons op bs => rw [decodeBytes_cons, decode_ok_iff, List.cons_prefix_cons, eq_comm]

/-- Settles O52: an encoding begins with the bytes that decode to the instruction. -/
theorem decodeOfEncode : Obligations.DecodeOfEncode := by
  intro i rest
  rw [bytesDecodeExactlyToWhatTheyEncode, encode_take_read]
  exact (read_prefix_encode i).trans (List.prefix_append _ _)

/-- Settles O54: each of the nine words is decoded by evaluation. -/
theorem specWordsDecode : Obligations.SpecWordsDecode :=
  ⟨rfl, rfl, rfl, rfl, rfl, rfl, rfl, rfl, rfl⟩

/-- Settles O55: the bits of each of the twelve opcode bytes. -/
theorem opcodeBitsTellLengthAluAndJump : Obligations.OpcodeBitsTellLengthAluAndJump := by
  intro k
  cases k <;> decide

end Sys2Proof

/-! Faults: why a fetch or an instruction faults, which cause it records, and that nothing else changes (40_cycle_and_decode.md
section 3, 60_exceptions.md). -/

namespace Sys2Proof

/-- The decoder refuses an unrecognised opcode, or bytes that end before an operand that the operation reads. -/
theorem decode_error_cases {op : Byte} {bs : List Byte} {e : DecodeError} (h : decode op bs = .error e) :
    (dispatch op = none ∧ e = .illegalOpcode op) ∨ ∃ k : Op, op = k.opcode ∧
      ((k.readsA = true ∧ bs = [] ∧ e = .operandAMissing) ∨ (k = .ldi ∧ bs.length = 1 ∧ e = .operandBMissing)) := by
  cases hd : dispatch op with
  | none =>
    rw [decode, hd] at h
    exact .inl ⟨rfl, (Except.error.inj h).symm⟩
  | some k =>
    refine .inr ⟨k, dispatch_eq_some.mp hd, ?_⟩
    rw [decode, hd] at h
    cases k with
    | hlt | ret => cases h
    | ldi =>
      match bs, h with
      | [], h => exact .inl ⟨rfl, rfl, (Except.error.inj h).symm⟩
      | [_], h => exact .inr ⟨rfl, rfl, (Except.error.inj h).symm⟩
    | prn | mul | push | pop | call | cmp | jmp | jeq | jne =>
      match bs, h with
      | [], h => exact .inl ⟨rfl, rfl, (Except.error.inj h).symm⟩

/-- An unrecognised opcode is refused before any operand is looked at (R94). -/
theorem decode_illegal {op : Byte} {bs : List Byte} (h : dispatch op = none) :
    decode op bs = .error (.illegalOpcode op) := by
  rw [decode, h]

end Sys2Proof

namespace Sys2Proof.Machine

/-! ### Faults of the fetch -/

theorem State.operandBytes_eq_nil {s : State} (h : s.operandBytes = []) : s.pc.toNat = 255 := by
  have := s.pc.isLt
  rw [State.operandBytes_eq] at h
  split_ifs at h
  omega

theorem State.operandBytes_length_eq_one {s : State} (h : s.operandBytes.length = 1) : s.pc.toNat = 254 := by
  rw [State.operandBytes_eq] at h
  split_ifs at h
  · cases h
  · omega

/-- Why a fetch faults: the opcode is unrecognised, or an operand that the operation reads would stand at address 256. -/
theorem State.fetch_error_cases {s : State} {c : Cause} (h : s.fetch = .error c) :
    (dispatch (s.memRead s.pc) = none ∧ c = .illegalOpcode (s.memRead s.pc)) ∨
    ∃ k : Op, s.memRead s.pc = k.opcode ∧ c = .addressRange 256 ∧
      ((k.readsA = true ∧ s.pc.toNat = 255) ∨ (k = .ldi ∧ s.pc.toNat = 254)) := by
  obtain ⟨e, he, rfl⟩ := State.fetch_error_iff.mp h
  rcases decode_error_cases he with ⟨hd, rfl⟩ | ⟨k, hk, ⟨hA, hbs, rfl⟩ | ⟨hB, hbs, rfl⟩⟩
  · exact .inl ⟨hd, rfl⟩
  · have hpc := State.operandBytes_eq_nil hbs
    exact .inr ⟨k, hk, by simp [State.decodeCause, hpc], .inl ⟨hA, hpc⟩⟩
  · have hpc := State.operandBytes_length_eq_one hbs
    exact .inr ⟨k, hk, by simp [State.decodeCause, hpc], .inr ⟨hB, hpc⟩⟩

theorem State.fetch_illegal {s : State} (h : dispatch (s.memRead s.pc) = none) :
    s.fetch = .error (.illegalOpcode (s.memRead s.pc)) :=
  State.fetch_error_iff.mpr ⟨_, decode_illegal h, rfl⟩

theorem step_fetch_error {s : State} {c : Cause} (hs : s.status = .running) (hf : s.fetch = .error c) :
    step s = .next (s.raise c) := by
  simp [step, hs, hf]

/-- Settles O22: the twelve bytes are those of the opcode table, and the fetch refuses every other. -/
theorem illegalOpcodeFaults : Obligations.IllegalOpcodeFaults := by
  intro s hs hb
  refine step_fetch_error hs (State.fetch_illegal (dispatch_eq_none.mpr fun k hk => hb ?_))
  rw [hk]
  cases k <;> decide

/-! ### What a fault records and what it leaves -/

/-- The addresses that an out-of-range program counter can give are 256 and 257. -/
theorem recordable_pcPlus {p n : Nat} {c : Cause} (hp : p + n ≤ 257) (h : 255 < p + n ∧ c = .addressRange (p + n)) :
    c.Recordable := by
  obtain ⟨hlt, rfl⟩ := h
  simp only [Cause.Recordable]
  omega

theorem recordable_registerIndex {a : Byte} {c : Cause} (h : 7 < a.toNat ∧ c = .registerIndex a.toNat) : c.Recordable := by
  obtain ⟨hlt, rfl⟩ := h
  have := a.isLt
  simp only [Cause.Recordable]
  omega

/-- A fetched instruction of two or three bytes has its operand in memory, so its successor is at most 257. -/
theorem State.fetch_length {s : State} {i : Instr} (h : s.fetch = .ok i) : s.pc.toNat + i.length ≤ 257 := by
  have hpc := s.pc.isLt
  obtain ⟨-, hA, hB⟩ := State.fetch_eq_ok.mp h
  cases i with
  | hlt | ret => simp only [Instr.length, Instr.op, Op.length]; omega
  | ldi r v | prn r | mul r | push r | pop r | call r | cmp r | jmp r | jeq r | jne r =>
    have h1 := (hA r rfl).1
    simp only [Instr.length, Instr.op, Op.length]
    omega

/-- What a fetched instruction can record. -/
theorem FaultOf.recordable {i : Instr} {s : State} {c : Cause} (hf : s.fetch = .ok i) (h : FaultOf i s c) : c.Recordable := by
  have hlen := State.fetch_length hf
  cases i with
  | hlt => exact h.elim
  | ldi a v | prn a | call a => exact h.elim recordable_registerIndex fun ⟨_, h⟩ => recordable_pcPlus hlen h
  | mul a | cmp a =>
    rcases h with h | ⟨-, rfl⟩ | ⟨-, h⟩
    · exact recordable_registerIndex h
    · exact ⟨le_rfl, by decide⟩
    · exact recordable_pcPlus hlen h
  | push a =>
    rcases h with h | ⟨-, -, rfl⟩ | ⟨-, -, h⟩
    · exact recordable_registerIndex h
    · exact .inl rfl
    · exact recordable_pcPlus hlen h
  | pop a =>
    rcases h with h | ⟨-, -, rfl⟩ | ⟨-, -, h⟩
    · exact recordable_registerIndex h
    · exact .inr (.inl rfl)
    · exact recordable_pcPlus hlen h
  | ret => exact h.2 ▸ .inr (.inl rfl)
  | jmp a => exact recordable_registerIndex h
  | jeq a | jne a => exact h.elim recordable_registerIndex fun ⟨_, _, h⟩ => recordable_pcPlus hlen h

/-- What a fetch can record. -/
theorem State.fetch_error_recordable {s : State} {c : Cause} (h : s.fetch = .error c) : c.Recordable := by
  rcases State.fetch_error_cases h with ⟨hd, rfl⟩ | ⟨k, -, rfl, -⟩
  · exact hd
  · exact .inr (.inl rfl)

/-- Settles O40: a stopped engine keeps its cause, and a step from RUNNING records one of the fetch or of the fetched
instruction. -/
theorem stepKeepsRecordedCauseLegal : Obligations.StepKeepsRecordedCauseLegal := by
  intro s t hs h c hc
  by_cases hr : s.status = .running
  · rcases step_fault_cases hr h hc with hf | ⟨i, hf, hfault⟩
    · exact State.fetch_error_recordable hf
    · exact hfault.recordable hf
  · obtain rfl : s = t := by simpa [step_stopped hr] using h
    exact hs c hc

/-- Settles O39: the reset state is RUNNING, so it records no cause. -/
theorem resetStatusIsLegal : Obligations.ResetStatusIsLegal := ⟨rfl, nofun⟩

/-- Settles O24: a step to FAULTED raises the cause, since no effect faults. -/
theorem faultsArePrecise : Obligations.FaultsArePrecise := by
  intro s t c hs h hc
  rcases step_fault_cases hs h hc with hf | ⟨i, hf, hfault⟩
  · exact (Host.Outcome.next.inj ((step_fetch_error hs hf).symm.trans h)).symm
  · exact (Host.Outcome.next.inj ((exec_of_fault hfault).symm.trans ((step_running hs hf).symm.trans h))).symm

/-! ### The order of the checks -/

/-- The first failing check of a list is its head's, or its tail's where the head's passes. -/
theorem firstFailing_cons_iff {b : Bool} {d c : Cause} {l : List (Bool × Cause)} :
    (((b, d) :: l).find? (·.1)).map (·.2) = some c ↔
      (b = true ∧ c = d) ∨ (b = false ∧ (l.find? (·.1)).map (·.2) = some c) := by
  cases b <;> simp [eq_comm]

theorem firstFailing_nil {c : Cause} : (([] : List (Bool × Cause)).find? (·.1)).map (·.2) ≠ some c := nofun

/-- When the fetch has passed, the table's first failing check is the instruction's own fault: the two checks of operand
addresses pass, as the operands were fetched, and the others are the instruction's. -/
theorem firstFault_fetched_iff {i : Instr} {s : State} {c : Cause} (hf : s.fetch = .ok i) :
    firstFault s = some c ↔ FaultOf i s c := by
  obtain ⟨hop, hA, hB⟩ := State.fetch_eq_ok.mp hf
  have hsp := s.sp.isLt
  rw [firstFault, faultTable, hop, dispatch_opcode]
  cases i with
  | hlt | ret =>
    simp only [firstFailing_cons_iff, firstFailing_nil, Instr.op, Op.readsA, Op.readsB, Op.regA, Op.pair, Op.length, advances,
      FaultOf]
    grind
  | ldi a v =>
    obtain ⟨-, rfl⟩ := hA _ rfl
    have hpc := (hB _ _ rfl).1
    simp only [firstFailing_cons_iff, firstFailing_nil, Instr.op, Op.readsA, Op.readsB, Op.regA, Op.pair, Op.length, advances,
      FaultOf]
    grind
  | mul a | prn a | push a | pop a | call a | cmp a | jmp a | jeq a | jne a =>
    obtain ⟨hpc, rfl⟩ := hA _ rfl
    simp only [firstFailing_cons_iff, firstFailing_nil, Instr.op, Op.readsA, Op.readsB, Op.regA, Op.pair, Op.length, advances,
      FaultOf]
    grind

/-- When the fetch faults, the table's first failing check is the fetch's. -/
theorem firstFault_of_fetch_error {s : State} {c : Cause} (hf : s.fetch = .error c) : firstFault s = some c := by
  rcases State.fetch_error_cases hf with ⟨hd, rfl⟩ | ⟨k, hk, rfl, h⟩
  · rw [firstFault, faultTable, hd]
    rfl
  · rw [firstFault, faultTable, hk, dispatch_opcode]
    rcases h with ⟨hA, hpc⟩ | ⟨rfl, hpc⟩
    · simp [hA, hpc]
    · simp [hpc, Op.readsA, Op.readsB]

/-- Settles O23: the table's first failing check is the fault of the fetch, or of the instruction where the fetch passes. -/
theorem stepFaultsInTheOrderOfTheChecks : Obligations.StepFaultsInTheOrderOfTheChecks := by
  intro s hs
  cases hf : s.fetch with
  | error d =>
    rw [firstFault_of_fetch_error hf]
    refine ⟨fun c hc => ?_, nofun⟩
    obtain rfl := Option.some.inj hc
    exact step_fetch_error hs hf
  | ok i =>
    rw [step_running hs hf]
    refine ⟨fun c hc => exec_of_fault ((firstFault_fetched_iff hf).mp hc), fun hnone => ?_⟩
    obtain ⟨t, ht⟩ := exec_total i s
    refine ⟨t, ht, ?_⟩
    rcases exec_cases ht with he | ⟨c, hc, -⟩
    · exact he.status_ne_faulted hs
    · simp [(firstFault_fetched_iff hf).mpr hc] at hnone

end Sys2Proof.Machine

/-! Frames: what each effect leaves of the stack pointer, the console stream and the status, and the rules of 95_test_vectors.md
section 4 that follow for a step. -/

namespace Sys2Proof.Machine

/-! ### Frames of an instruction -/

/-- No effect but PUSH's, POP's and RET's moves the stack pointer. -/
theorem Effect.sp_eq {i : Instr} {s t : State} (h : Effect i s t) (hpush : i.op ≠ .push) (hpop : i.op ≠ .pop)
    (hret : i.op ≠ .ret) : t.sp = s.sp := by
  cases i with
  | hlt => rw [show t = s.halt from h]; rfl
  | ldi _ _ | prn _ | call _ => obtain ⟨r, -, -, rfl⟩ := h; rfl
  | mul _ | cmp _ => obtain ⟨r, n, -, -, -, rfl⟩ := h; rfl
  | jmp _ => obtain ⟨r, -, rfl⟩ := h; rfl
  | jeq _ | jne _ => obtain ⟨r, -, ⟨-, rfl⟩ | ⟨-, -, rfl⟩⟩ := h <;> rfl
  | push _ => exact absurd rfl hpush
  | pop _ => exact absurd rfl hpop
  | ret => exact absurd rfl hret

/-- No effect but PRN's touches the console stream. -/
theorem Effect.console_eq {i : Instr} {s t : State} (h : Effect i s t) (hprn : i.op ≠ .prn) : t.console = s.console := by
  cases i with
  | hlt => rw [show t = s.halt from h]; rfl
  | ldi _ _ | call _ => obtain ⟨r, -, -, rfl⟩ := h; rfl
  | mul _ | cmp _ => obtain ⟨r, n, -, -, -, rfl⟩ := h; rfl
  | push _ | pop _ => obtain ⟨r, -, -, -, rfl⟩ := h; rfl
  | ret => obtain ⟨-, rfl⟩ := h; rfl
  | jmp _ => obtain ⟨r, -, rfl⟩ := h; rfl
  | jeq _ | jne _ => obtain ⟨r, -, ⟨-, rfl⟩ | ⟨-, -, rfl⟩⟩ := h <;> rfl
  | prn _ => exact absurd rfl hprn

/-- Settles O25: the frame of registers, for an instruction that completes or faults. -/
theorem frameOfRegisters : Obligations.FrameOfRegisters :=
  fun _ _ _ _ => exec_reg_eq

/-- Settles O29: the frames of each effect; a fault changes the status alone. -/
theorem frameOfFlagsStackPointerConsoleStatus : Obligations.FrameOfFlagsStackPointerConsoleStatus := by
  intro i s t h
  rcases exec_cases h with he | ⟨c, -, rfl⟩
  · exact ⟨he.flags_eq, he.sp_eq, he.console_eq, fun hhlt => .inl (he.status_eq fun hi => hhlt (hi ▸ rfl))⟩
  · exact ⟨fun _ => rfl, fun _ _ _ => rfl, fun _ => rfl, fun _ => .inr ⟨c, rfl⟩⟩

/-! ### Frames of a step -/

/-- Settles O46: the step that changes the console stream has the effect of a PRN. -/
theorem consoleGrowsOnlyByPrn : Obligations.ConsoleGrowsOnlyByPrn := by
  intro s t h
  rcases step_effect_cases h with rfl | ⟨-, ⟨c, rfl⟩ | ⟨i, hf, he⟩⟩
  · exact .inl rfl
  · exact .inl rfl
  · cases i with
    | prn a =>
      obtain ⟨r, rfl, -, rfl⟩ := he
      exact .inr ⟨State.fetch_opcode hf, r, (State.fetch_operandA hf rfl).2, rfl⟩
    | _ => exact .inl (he.console_eq nofun)

/-- Settles O47: the steps that move the stack pointer have the effects of PUSH, POP and RET, whose range checks passed. -/
theorem stackPointerMovesByOne : Obligations.StackPointerMovesByOne := by
  intro s t h
  rcases step_effect_cases h with rfl | ⟨-, ⟨c, rfl⟩ | ⟨i, hf, he⟩⟩
  · exact .inl rfl
  · exact .inl rfl
  · have hop := State.fetch_opcode hf
    cases i with
    | push a =>
      obtain ⟨hsp, htsp, -⟩ := he.push_mem
      exact .inr (.inl ⟨hop, htsp ▸ byte_sub_one_toNat hsp⟩)
    | pop a =>
      obtain ⟨r, -, hsp, -, rfl⟩ := he
      exact .inr (.inr ⟨.inl hop, byte_add_toNat (n := 1) hsp⟩)
    | ret =>
      obtain ⟨hsp, rfl⟩ := he
      exact .inr (.inr ⟨.inr hop, byte_add_toNat (n := 1) hsp⟩)
    | _ => exact .inl (he.sp_eq nofun nofun nofun)

/-- MUL has no effect on register 7, which is the first of no pair. -/
theorem Effect.mul_operand_ne_seven {a : Byte} {s t : State} (h : Effect (.mul a) s t) : a ≠ regByte 7 := by
  obtain ⟨r, n, rfl, hn, -, -⟩ := h
  intro hr
  obtain rfl := regByte_inj.mp hr
  exact absurd hn n.isLt.ne

/-- Settles O48: the step that changes R7 has an effect whose destination is 7, and MUL has none. -/
theorem registerSevenChangesOnlyAsOperand : Obligations.RegisterSevenChangesOnlyAsOperand := by
  intro s t h hne
  rcases step_effect_cases h with rfl | ⟨-, ⟨c, rfl⟩ | ⟨i, hf, he⟩⟩
  · exact absurd rfl hne
  · exact absurd rfl hne
  · have hop := State.fetch_opcode hf
    have hdest : destReg i = some (regByte 7) := by_contra fun hd => hne (he.reg_eq hd)
    cases i with
    | ldi a v =>
      obtain rfl := Option.some.inj hdest
      exact ⟨(State.fetch_operandA hf rfl).2, .inl hop⟩
    | pop a =>
      obtain rfl := Option.some.inj hdest
      exact ⟨(State.fetch_operandA hf rfl).2, .inr (.inl hop)⟩
    | push a =>
      obtain rfl := Option.some.inj hdest
      exact ⟨(State.fetch_operandA hf rfl).2, .inr (.inr hop)⟩
    | mul a => exact absurd (Option.some.inj hdest) he.mul_operand_ne_seven
    | _ => cases hdest

/-! ### The sequencer -/

/-- A step from RUNNING reaches HALTED exactly by the effect of HLT. -/
theorem step_halted_iff {s t : State} (hs : s.status = .running) (h : step s = .next t) :
    t.status = .halted ↔ s.memRead s.pc = Op.hlt.opcode := by
  constructor
  · intro ht
    rcases step_effect_cases h with rfl | ⟨-, ⟨c, rfl⟩ | ⟨i, hf, he⟩⟩
    · cases hs.symm.trans ht
    · cases ht
    · have hi : i = .hlt := by_contra fun hi => by rw [he.status_eq hi, hs] at ht; cases ht
      subst hi
      exact State.fetch_opcode hf
  · intro hop
    have hf : s.fetch = .ok .hlt := State.fetch_eq_ok.mpr ⟨hop, nofun, nofun⟩
    obtain rfl : s.halt = t := Host.Outcome.next.inj ((step_running hs hf).symm.trans h)
    rfl

/-- A step that reaches HALTED changes the status alone. -/
theorem step_halted_eq {s t : State} (hs : s.status = .running) (h : step s = .next t) (ht : t.status = .halted) :
    t = s.halt := by
  have hf : s.fetch = .ok .hlt := State.fetch_eq_ok.mpr ⟨(step_halted_iff hs h).mp ht, nofun, nofun⟩
  exact (Host.Outcome.next.inj ((step_running hs hf).symm.trans h)).symm

/-- Settles O45: HALTED is reached exactly by the step of an HLT, which changes the status alone. -/
theorem haltedExactlyByHlt : Obligations.HaltedExactlyByHlt :=
  fun _ _ hs h => ⟨step_halted_iff hs h, step_halted_eq hs h⟩

/-- Settles O5: by the status of the next state, which always exists. -/
theorem stepHasThreeOutcomes : Obligations.StepHasThreeOutcomes := by
  intro s
  obtain ⟨t, h⟩ := step_total s
  refine ⟨t, h, fun hs => ?_⟩
  cases ht : t.status with
  | running => exact .inl rfl
  | halted => exact .inr (.inl ⟨step_halted_eq hs h ht, (step_halted_iff hs h).mp ht⟩)
  | faulted c => exact .inr (.inr ⟨c, faultsArePrecise s t c hs h ht⟩)

/-- Settles O2: the fetch answers the instruction that the decoder answers. -/
theorem stepRunsTheDecodedInstruction : Obligations.StepRunsTheDecodedInstruction :=
  fun _ _ hs hd => step_running hs (State.fetch_ok_iff.mpr hd)

/-- Operand A is the second byte of an encoding. -/
theorem encode_operandA {i : Instr} {a : Byte} (h : i.operandA = some a) : (encode i)[1]? = some a := by
  cases i with
  | hlt | ret => cases h
  | ldi r v | prn r | mul r | push r | pop r | call r | cmp r | jmp r | jeq r | jne r => exact h

theorem encode_opcode (i : Instr) : (encode i)[0]? = some i.op.opcode := by
  cases i <;> rfl

/-- Settles O3: the first bytes of the encoding are those that the fetch reads. -/
theorem stepRunsTheInstructionEncodedAtPc : Obligations.StepRunsTheInstructionEncodedAtPc := by
  intro s i hs h
  refine step_running hs (State.fetch_eq_ok.mpr ⟨?_, fun a ha => h 1 a (encode_operandA ha), ?_⟩)
  · simpa using (h 0 _ (encode_opcode i)).2
  · rintro r v rfl
    exact h 2 v rfl

/-- An effect that jumps puts the target in `pc` (R99). -/
theorem Effect.pc_of_jump {i : Instr} {s t : State} {v : Byte} (h : Effect i s t) (hv : jumpTarget i s = some v) : t.pc = v := by
  cases i with
  | hlt | ldi _ _ | prn _ | mul _ | push _ | pop _ | cmp _ => cases hv
  | call _ => obtain ⟨r, rfl, -, rfl⟩ := h; simpa [jumpTarget] using hv
  | ret => obtain ⟨-, rfl⟩ := h; simpa [jumpTarget] using hv
  | jmp _ => obtain ⟨r, rfl, rfl⟩ := h; simpa [jumpTarget] using hv
  | jeq _ | jne _ =>
    obtain ⟨r, rfl, ⟨hE, rfl⟩ | ⟨hE, -, rfl⟩⟩ := h
    · simpa [jumpTarget, hE] using hv
    · simp [jumpTarget, hE] at hv

/-- An effect that does not jump, HLT's apart, advances `pc` by the instruction's length (R96 (c), R99). -/
theorem Effect.pc_of_advance {i : Instr} {s t : State} (h : Effect i s t) (hi : i ≠ .hlt) (hv : jumpTarget i s = none) :
    t.pc.toNat = s.pc.toNat + i.length := by
  cases i with
  | hlt => exact absurd rfl hi
  | ldi _ _ | prn _ => obtain ⟨r, -, hp, rfl⟩ := h; exact byte_add_toNat hp
  | mul _ | cmp _ => obtain ⟨r, n, -, -, hp, rfl⟩ := h; exact byte_add_toNat hp
  | push _ | pop _ => obtain ⟨r, -, -, hp, rfl⟩ := h; exact byte_add_toNat hp
  | call _ => obtain ⟨r, rfl, -, -⟩ := h; simp [jumpTarget] at hv
  | ret => cases hv
  | jmp _ => obtain ⟨r, rfl, -⟩ := h; simp [jumpTarget] at hv
  | jeq _ | jne _ =>
    obtain ⟨r, rfl, ⟨hE, -⟩ | ⟨-, hp, rfl⟩⟩ := h
    · simp [jumpTarget, hE] at hv
    · exact byte_add_toNat hp

/-- Settles O4: the fetch reads the opcode and the operands that the instruction needs, and its effect moves `pc`. -/
theorem sequencerLoop : Obligations.SequencerLoop := by
  intro s
  refine ⟨step_stopped, fun hs i hop hA hB => ⟨step_running hs (State.fetch_eq_ok.mpr ⟨hop, hA, hB⟩), fun t h ht => ?_⟩,
    fun hs => ?_⟩
  · have he := effect_of_completes h ht
    have hi : i ≠ .hlt := by rintro rfl; rw [show t = s.halt from he] at ht; cases ht
    exact ⟨fun v => he.pc_of_jump, he.pc_of_advance hi⟩
  · obtain ⟨t, h⟩ := step_total s
    exact ⟨t, h, step_halted_iff hs h⟩

end Sys2Proof.Machine

/-! What a step does not depend on (the third byte of MUL and CMP, the flags Less and Greater), and what every run keeps. -/

namespace Sys2Proof.Machine

/-! ### The third byte of MUL and CMP -/

/-- An effect of MUL or CMP and a write of a memory cell do not interfere. -/
theorem Effect.memWrite_of_pair {i : Instr} {s t : State} (b v : Byte) (h : Effect i s t) (hi : i.op = .mul ∨ i.op = .cmp) :
    Effect i (s.memWrite b v) (t.memWrite b v) := by
  cases i with
  | mul _ | cmp _ => obtain ⟨r, n, rfl, hn, hp, rfl⟩ := h; exact ⟨r, n, rfl, hn, hp, rfl⟩
  | _ => simp [Instr.op] at hi

/-- Neither do an execution of MUL or CMP, that completes or faults, and such a write. -/
theorem exec_memWrite_of_pair {i : Instr} {s t : State} (b v : Byte) (h : exec i s = .next t)
    (hi : i.op = .mul ∨ i.op = .cmp) : exec i (s.memWrite b v) = .next (t.memWrite b v) := by
  rcases exec_cases h with he | ⟨c, hc, rfl⟩
  · exact exec_of_effect (he.memWrite_of_pair b v hi)
  · exact exec_of_fault (fault_congr (s := s) rfl rfl rfl hc)

/-- To fetch a MUL or a CMP takes its opcode and operand A alone (R77, R95). -/
theorem State.fetch_of_pair {s : State} {i : Instr} (hi : i.op = .mul ∨ i.op = .cmp) (hop : s.memRead s.pc = i.op.opcode)
    (hp : s.pc.toNat + 1 ≤ 255) (hA : i.operandA = some (s.memRead (s.pc + 1))) : s.fetch = .ok i := by
  refine State.fetch_eq_ok.mpr ⟨hop, fun a ha => ⟨hp, Option.some.inj (hA.symm.trans ha)⟩, ?_⟩
  rintro r v rfl
  simp [Instr.op] at hi

theorem exists_pair_instr {b : Byte} (a : Byte) (h : b = 0xA2 ∨ b = 0xA7) :
    ∃ i : Instr, (i.op = .mul ∨ i.op = .cmp) ∧ b = i.op.opcode ∧ i.operandA = some a := by
  rcases h with h | h
  · exact ⟨.mul a, .inl rfl, h, rfl⟩
  · exact ⟨.cmp a, .inr rfl, h, rfl⟩

/-- Settles O35: from the state with another third byte the same instruction is fetched, and a write elsewhere does not
interfere with its execution. -/
theorem thirdByteOfMulAndCmpIsNotRead : Obligations.ThirdByteOfMulAndCmpIsNotRead := by
  intro s t v hs hp hb h
  obtain ⟨i, hi, hop, hA⟩ := exists_pair_instr (s.memRead (s.pc + 1)) hb
  have h0 : (s.memWrite (s.pc + 2) v).memRead s.pc = s.memRead s.pc :=
    State.memWrite_memRead_other s v (by simp)
  have h1 : (s.memWrite (s.pc + 2) v).memRead (s.pc + 1) = s.memRead (s.pc + 1) :=
    State.memWrite_memRead_other s v (by simp)
  have hf : s.fetch = .ok i := State.fetch_of_pair hi hop (by omega) hA
  have hf' : (s.memWrite (s.pc + 2) v).fetch = .ok i :=
    State.fetch_of_pair hi (h0.trans hop) (Nat.le_of_succ_le hp) (hA.trans (congrArg some h1.symm))
  rw [step_running hs hf] at h
  rw [step_running (s := s.memWrite (s.pc + 2) v) hs hf']
  exact exec_memWrite_of_pair _ v h hi

/-! ### Less and Greater -/

/-- The state with other Less and Greater flags. -/
def State.withLessGreater (s : State) (l g : Bool) : State := { s with flags := ⟨l, g, s.flags.equal⟩ }

/-- States alike but for Less and Greater are alike but for them after a flag is set. -/
theorem State.setFlag_withLessGreater (s : State) (l g : Bool) (f : Flag) :
    ∃ l' g', (s.withLessGreater l g).setFlag f = (s.setFlag f).withLessGreater l' g' := by
  cases f with
  | less => exact ⟨true, g, rfl⟩
  | greater => exact ⟨l, true, rfl⟩
  | equal => exact ⟨l, g, rfl⟩

/-- An effect does not depend on Less and Greater, and changes nothing else differently. -/
theorem Effect.withLessGreater {i : Instr} {s t : State} (h : Effect i s t) (l g : Bool) :
    ∃ l' g', Effect i (s.withLessGreater l g) (t.withLessGreater l' g') := by
  cases i with
  | cmp a =>
    obtain ⟨r, n, rfl, hn, hp, rfl⟩ := h
    obtain ⟨l', g', hset⟩ := s.setFlag_withLessGreater l g (compareFlag (s.reg r) (s.reg n))
    exact ⟨l', g', r, n, rfl, hn, hp, congrArg (State.setPc · _) hset.symm⟩
  | _ =>
    refine ⟨l, g, ?_⟩
    rw [State.withLessGreater, State.withLessGreater, h.flags_eq nofun]
    exact h.withFlags (.inr rfl) nofun

theorem after_of_step {s t : State} (h : step s = .next t) : s.after = t :=
  Host.Outcome.next.inj ((step_after s).symm.trans h)

/-- From a state with other Less and Greater flags a step goes to a state with other Less and Greater flags. -/
theorem after_withLessGreater (s : State) (l g : Bool) :
    ∃ l' g', (s.withLessGreater l g).after = s.after.withLessGreater l' g' := by
  by_cases hs : s.status = .running
  · have hfetch : (s.withLessGreater l g).fetch = s.fetch := State.fetch_congr rfl rfl
    cases hf : s.fetch with
    | error c =>
      refine ⟨l, g, ?_⟩
      rw [after_of_step (step_fetch_error hs hf)]
      exact after_of_step (step_fetch_error (s := s.withLessGreater l g) hs (hfetch.trans hf))
    | ok i =>
      have hx := (step_running hs hf).symm.trans (step_after s)
      have hstep : step (s.withLessGreater l g) = exec i (s.withLessGreater l g) := step_running hs (hfetch.trans hf)
      rcases exec_cases hx with he | ⟨c, hc, ht⟩
      · obtain ⟨l', g', he'⟩ := he.withLessGreater l g
        exact ⟨l', g', after_of_step (hstep.trans (exec_of_effect he'))⟩
      · refine ⟨l, g, ?_⟩
        rw [ht]
        exact after_of_step (hstep.trans (exec_of_fault (fault_congr (s := s) rfl rfl rfl hc)))
  · exact ⟨l, g, by rw [after_stopped hs, after_stopped (s := s.withLessGreater l g) hs]⟩

/-- Settles O38: by induction on the number of steps, each of which keeps the two runs alike but for Less and Greater. -/
theorem lessAndGreaterNeverMatter : Obligations.LessAndGreaterNeverMatter := by
  intro n
  induction n with
  | zero => exact fun s l g => ⟨l, g, rfl⟩
  | succ n ih =>
    intro s l g
    obtain ⟨l', g', h⟩ := after_withLessGreater s l g
    obtain ⟨l'', g'', h'⟩ := ih s.after l' g'
    exact ⟨l'', g'', (congrArg (runFor n) h).trans h'⟩

/-! ### Runs -/

/-- No step clears a flag (R32). -/
theorem after_keeps_flag {s : State} (f : Flag) (h : s.flags.get f = true) : s.after.flags.get f = true := by
  rcases after_cases s with hs | ⟨-, ⟨c, hc⟩ | ⟨i, -, he⟩⟩
  · rwa [hs]
  · rw [hc]
    exact h
  · cases i with
    | cmp a =>
      obtain ⟨r, n, -, -, -, ht⟩ := he
      rw [ht, State.setPc_flags, State.setFlag_flags, Flags.get_set, h, Bool.or_true]
    | _ => rwa [he.flags_eq nofun]

/-- Settles O37: every step keeps a set flag, so every run does. -/
theorem flagsNeverClear : Obligations.FlagsNeverClear :=
  fun n _ f => runFor_induct (P := fun s => s.flags.get f = true) (fun _ => after_keeps_flag f) n

/-- A stopped engine is where it was after any number of steps. -/
theorem runFor_stopped (n : Nat) {s : State} (h : s.status ≠ .running) : runFor n s = s := by
  induction n with
  | zero => rfl
  | succ n ih => rw [runFor, after_stopped h, ih]

/-- The ALU driven on a stopped engine changes nothing (R33; log 29). -/
theorem aluDirect_stopped {s : State} (tag : AluTag) (ia ib : Nat) (h : s.status ≠ .running) : aluDirect tag ia ib s = s := by
  cases hs : s.status with
  | running => exact absurd hs h
  | halted | faulted c => rw [aluDirect, hs]

/-- The faulted output is off while the halted output is on. -/
theorem faultedOutput_of_haltedOutput {s : State} (h : s.haltedOutput = true) : s.faultedOutput = none := by
  cases hs : s.status with
  | halted => rw [State.faultedOutput, hs]
  | running | faulted c => rw [State.haltedOutput, hs] at h; cases h

/-- Settles O44: stopped states are fixed by every step and by the ALU's drive, and the outputs exclude each other. -/
theorem stoppedRunsStayStopped : Obligations.StoppedRunsStayStopped := by
  refine ⟨fun m n s h => ?_, fun tag ia ib s => aluDirect_stopped tag ia ib, fun s => faultedOutput_of_haltedOutput⟩
  rw [runFor_add, runFor_stopped n h]

end Sys2Proof.Machine

/-! What each instruction completes with and which faults it takes (files 41 to 46 of the spec): special cases of its effect and
of its checks, and the two-instruction examples of 95_test_vectors.md section 1. -/

namespace Sys2Proof.Machine

/-! ### Completions -/

/-- Settles O6: HLT has no check. -/
theorem hltCompletes : Obligations.HltCompletes :=
  fun _ => exec_of_effect rfl

/-- Settles O7: PRN's effect. -/
theorem prnCompletes : Obligations.PrnCompletes :=
  fun _ r hp => exec_of_effect ⟨r, rfl, hp, rfl⟩

/-- Settles O8: LDI's effect. -/
theorem ldiCompletes : Obligations.LdiCompletes :=
  fun _ r _ hp => exec_of_effect ⟨r, rfl, hp, rfl⟩

/-- Settles O9: MUL's effect, on the pair of a register below R7. -/
theorem mulCompletes : Obligations.MulCompletes :=
  fun _ r hp => exec_of_effect ⟨r.castSucc, r.succ, rfl, rfl, hp, rfl⟩

/-- CMP of a pair sets the flag that the comparison names. -/
theorem exec_cmp_pair (s : State) (r : Fin 7) (hp : s.pc.toNat + 3 ≤ 255) :
    exec (.cmp (regByte r.castSucc)) s =
      .next ((s.setFlag (compareFlag (s.reg r.castSucc) (s.reg r.succ))).setPc (s.pc + 3)) :=
  exec_of_effect ⟨r.castSucc, r.succ, rfl, rfl, hp, rfl⟩

theorem compareFlag_greater {a b : Byte} (h : a.toNat > b.toNat) : compareFlag a b = .greater := if_pos h

theorem compareFlag_less {a b : Byte} (h : a.toNat < b.toNat) : compareFlag a b = .less := by
  rw [compareFlag, if_neg (by omega), if_pos h]

theorem compareFlag_equal {a b : Byte} (h : a.toNat = b.toNat) : compareFlag a b = .equal := by
  rw [compareFlag, if_neg (by omega), if_neg (by omega)]

/-- Settles O10: the flag that the comparison names, by how the two numbers compare. -/
theorem cmpCompletes : Obligations.CmpCompletes := by
  intro s r hp
  rw [exec_cmp_pair s r hp]
  refine ⟨fun h => ?_, fun h => ?_, fun h => ?_⟩
  · rw [compareFlag_greater h]; rfl
  · rw [compareFlag_less h]; rfl
  · rw [compareFlag_equal h]; rfl

/-- Settles O11: PUSH's effect, with the new stack pointer and the new value as numbers. -/
theorem pushCompletes : Obligations.PushCompletes := by
  intro s r hsp hp
  have hval : (s.sp - 1).toNat = s.sp.toNat - 1 := Nat.eq_sub_of_add_eq (byte_sub_one_toNat hsp)
  rw [exec_of_effect (i := .push (regByte r)) ⟨r, rfl, hsp, hp, rfl⟩, pushValue_eq, State.memWrite, hval]
  rfl

/-- Settles O12: POP's effect. -/
theorem popCompletes : Obligations.PopCompletes :=
  fun _ r hsp hp => exec_of_effect ⟨r, rfl, hsp, hp, rfl⟩

/-- Settles O13: CALL's effect, with the return address as a number. -/
theorem callCompletes : Obligations.CallCompletes := by
  intro s r hp
  have hret : BitVec.ofNat 8 (s.pc.toNat + 2) = s.pc + 2 := by
    rw [BitVec.ofNat_add, BitVec.ofNat_toNat, BitVec.setWidth_eq]
    rfl
  rw [hret]
  exact exec_of_effect ⟨r, rfl, hp, rfl⟩

/-- Settles O14: RET's effect. -/
theorem retCompletes : Obligations.RetCompletes :=
  fun _ hsp => exec_of_effect ⟨hsp, rfl⟩

/-- Settles O15: JMP's effect. -/
theorem jmpCompletes : Obligations.JmpCompletes :=
  fun _ r => exec_of_effect ⟨r, rfl, rfl⟩

/-- Settles O16: the two effects of JEQ. -/
theorem jeqCompletes : Obligations.JeqCompletes :=
  fun _ r => ⟨fun hE => exec_of_effect ⟨r, rfl, .inl ⟨hE, rfl⟩⟩, fun hE hp => exec_of_effect ⟨r, rfl, .inr ⟨hE, hp, rfl⟩⟩⟩

/-- Settles O17: the two effects of JNE. -/
theorem jneCompletes : Obligations.JneCompletes :=
  fun _ r => ⟨fun hE => exec_of_effect ⟨r, rfl, .inl ⟨hE, rfl⟩⟩, fun hE hp => exec_of_effect ⟨r, rfl, .inr ⟨hE, hp, rfl⟩⟩⟩

/-! ### Faults -/

/-- A bad register index is the first check of every instruction that has an operand. -/
theorem faultOf_registerIndex {i : Instr} {a : Byte} (s : State) (ha : i.operandA = some a) (h : 7 < a.toNat) :
    FaultOf i s (.registerIndex a.toNat) := by
  cases i with
  | hlt | ret => cases ha
  | jmp _ => obtain rfl := Option.some.inj ha; exact ⟨h, rfl⟩
  | ldi _ _ | prn _ | mul _ | push _ | pop _ | call _ | cmp _ | jeq _ | jne _ =>
    obtain rfl := Option.some.inj ha
    exact .inl ⟨h, rfl⟩

/-- Settles O18: the first check of the instruction fails. -/
theorem registerIndexFaults : Obligations.RegisterIndexFaults :=
  fun s _ _ ha h => exec_of_fault (faultOf_registerIndex s ha h)

/-- Settles O19: the pair's check fails at register 7. -/
theorem pairIndexFaults : Obligations.PairIndexFaults :=
  fun _ => ⟨exec_of_fault (.inr (.inl ⟨rfl, rfl⟩)), exec_of_fault (.inr (.inl ⟨rfl, rfl⟩))⟩

/-- Settles O20: the range check of the new stack pointer fails. -/
theorem stackPointerRangeFaults : Obligations.StackPointerRangeFaults :=
  fun _ r => ⟨fun hsp => exec_of_fault (.inr (.inl ⟨regByte_le r, hsp, rfl⟩)),
    fun hsp => ⟨exec_of_fault (.inr (.inl ⟨regByte_le r, hsp, rfl⟩)), exec_of_fault ⟨hsp, rfl⟩⟩⟩

/-- The operand byte of a register that begins a pair. -/
theorem regByte_castSucc_le (r : Fin 7) : (regByte r.castSucc).toNat ≤ 6 := by
  rw [regByte_toNat, Fin.val_castSucc]
  omega

/-- Settles O21: the last check of the instruction fails, and those before it pass. -/
theorem successorAndReturnAddressFaults : Obligations.SuccessorAndReturnAddressFaults := by
  intro s
  refine ⟨fun hp => ⟨fun r v => ?ldi, fun r => ⟨?mul, ?cmp⟩⟩,
    fun hp r => ⟨?prn, ?call, fun hsp => ?push, fun hsp => ?pop, fun hE => ?jeq, fun hE => ?jne⟩⟩
  case ldi | prn | call => exact exec_of_fault (.inr ⟨regByte_le r, hp, rfl⟩)
  case mul | cmp => exact exec_of_fault (.inr (.inr ⟨regByte_castSucc_le r, hp, rfl⟩))
  case push | pop => exact exec_of_fault (.inr (.inr ⟨regByte_le r, hsp, hp, rfl⟩))
  case jeq | jne => exact exec_of_fault (.inr ⟨regByte_le r, hE, hp, rfl⟩)

/-! ### Two instructions -/

/-- Settles O49: LDI completes, then PRN of the value it left in the register. -/
theorem ldiThenPrnEmitsTheValue : Obligations.LdiThenPrnEmitsTheValue := by
  intro s r v hp
  have hp3 : (s.pc + 3).toNat = s.pc.toNat + 3 := byte_add_toNat (n := 3) (by omega)
  have hp5 : (s.pc + 3 + 2).toNat = s.pc.toNat + 5 := (byte_add_toNat (n := 2) (by omega)).trans (by omega)
  have hldi : Effect (.ldi (regByte r) v) s ((s.setReg r v).setPc (s.pc + 3)) := ⟨r, rfl, by omega, rfl⟩
  refine ⟨_, _, exec_of_effect hldi, exec_of_effect ⟨r, rfl, ?_, rfl⟩, ?_, rfl, hp5⟩
  · rw [State.setPc_pc]
    omega
  · simp

/-- Settles O50: PUSH completes, then POP of the cell that PUSH wrote. -/
theorem pushThenPopLosesOne : Obligations.PushThenPopLosesOne := by
  intro s r hsp hp
  have hp2 : (s.pc + 2).toNat = s.pc.toNat + 2 := byte_add_toNat (n := 2) (by omega)
  have hsp1 := byte_sub_one_toNat hsp
  have hsplt := s.sp.isLt
  refine ⟨_, _, exec_of_effect (i := .push (regByte r)) ⟨r, rfl, hsp, by omega, rfl⟩,
    exec_of_effect (i := .pop (regByte r)) ⟨r, rfl, ?_, ?_, rfl⟩, ?_, ?_, ?_, fun q hq => ?_⟩
  · change (s.sp - 1).toNat < 255
    omega
  · change (s.pc + 2).toNat + 2 ≤ 255
    omega
  · simp [pushValue_eq]
  · simp
  · simp [BitVec.add_assoc]
  · simp [State.setReg_reg_other _ _ hq]

/-- Settles O51: CALL completes, then RET to the return address that CALL wrote. -/
theorem callThenRetResumesAfterTheCall : Obligations.CallThenRetResumesAfterTheCall := by
  intro s r hp hsp
  have hcall : Effect (.call (regByte r)) s ((s.memWrite s.sp (s.pc + 2)).setPc (s.reg r)) := ⟨r, rfl, hp, rfl⟩
  exact ⟨_, _, exec_of_effect hcall, rfl, exec_of_effect (i := .ret) ⟨hsp, rfl⟩,
    State.memWrite_memRead_same s s.sp (s.pc + 2), byte_add_toNat (n := 1) hsp, rfl⟩

end Sys2Proof.Machine

/-! Reset, the ALU at its own interface (43_alu.md) and the loader port (48_blocks_and_interfaces.md). -/

namespace Sys2Proof.Machine

/-! ### Reset -/

/-- Settles O1: the reset state is written out; each register is looked up, and no cell is listed. -/
theorem resetLeavesTheListedValues : Obligations.ResetLeavesTheListedValues :=
  ⟨rfl, rfl, rfl, rfl, rfl, rfl, rfl, by decide, fun _ => rfl⟩

/-! ### The ALU's own interface -/

theorem aluDirect_add {s : State} (ia ib : RegIdx) (hs : s.status = .running) :
    aluDirect .add ia.val ib.val s = s.setReg ia (aluSum (s.reg ia) (s.reg ib)) :=
  aluDirect_of_ok hs (aluChecked_regs (tag := .add) rfl ia ib s)

theorem aluDirect_mul {s : State} (ia ib : RegIdx) (hs : s.status = .running) :
    aluDirect .mul ia.val ib.val s = s.setReg ia (aluProduct (s.reg ia) (s.reg ib)) :=
  aluDirect_of_ok hs (aluChecked_regs (tag := .mul) rfl ia ib s)

theorem aluDirect_cmp {s : State} (ia ib : RegIdx) (hs : s.status = .running) :
    aluDirect .cmp ia.val ib.val s = s.setFlag (compareFlag (s.reg ia) (s.reg ib)) :=
  aluDirect_of_ok hs (aluChecked_regs (tag := .cmp) rfl ia ib s)

/-- The three defined tags pass the check of the tag. -/
theorem checkTag_defined {tag : AluTag} (h : tag = .add ∨ tag = .mul ∨ tag = .cmp) : checkTag tag = .ok () := by
  rcases h with rfl | rfl | rfl <;> rfl

theorem checkIndex_error {i : Nat} (h : 7 < i) : checkIndex i = .error (.registerIndex i) :=
  checkIndex_error_iff.mpr ⟨h, rfl⟩

theorem aluDirect_bad_first {tag : AluTag} {ia : Nat} {s : State} (ib : Nat) (hs : s.status = .running)
    (ht : checkTag tag = .ok ()) (ha : 7 < ia) : aluDirect tag ia ib s = s.raise (.registerIndex ia) :=
  aluDirect_of_error hs (by simp [aluChecked, ht, checkIndex_error ha])

theorem aluDirect_bad_second {tag : AluTag} {ib : Nat} {s : State} (ia : RegIdx) (hs : s.status = .running)
    (ht : checkTag tag = .ok ()) (hb : 7 < ib) : aluDirect tag ia.val ib s = s.raise (.registerIndex ib) :=
  aluDirect_of_error hs (by simp [aluChecked, ht, checkIndex_error hb])

/-- Settles O42: the sum, the product and the comparison depend on both operands. -/
theorem aluReadsTwoRegistersAndWritesOneOfThem : Obligations.AluReadsTwoRegistersAndWritesOneOfThem := by
  refine ⟨?_, compareFlag, ⟨0, 1, 0, by decide⟩, ⟨0, 0, 1, by decide⟩, fun s ia ib hs => aluDirect_cmp ia ib hs⟩
  rintro tag (rfl | rfl)
  · exact ⟨aluSum, ⟨0, 1, 0, by decide⟩, ⟨0, 0, 1, by decide⟩, fun s ia ib hs => aluDirect_add ia ib hs⟩
  · exact ⟨aluProduct, ⟨0, 1, 1, by decide⟩, ⟨1, 0, 1, by decide⟩, fun s ia ib hs => aluDirect_mul ia ib hs⟩

/-- Settles O43: the ALU's effect on indices in range, and the first of its checks that fails. -/
theorem aluResultsAtItsOwnInterface : Obligations.AluResultsAtItsOwnInterface := by
  intro s hs
  refine ⟨fun ia ib => ⟨aluDirect_add ia ib hs, aluDirect_mul ia ib hs, ?_⟩, fun tag ia ib ht => ⟨?_, fun ha => ?_⟩,
    fun name ia ib => aluDirect_other name ia ib hs⟩
  · rw [aluDirect_cmp ia ib hs]
    refine ⟨fun h => ?_, fun h => ?_, fun h => ?_⟩
    · rw [compareFlag_greater h]; rfl
    · rw [compareFlag_less h]; rfl
    · rw [compareFlag_equal h]; rfl
  · exact aluDirect_bad_first ib hs (checkTag_defined ht)
  · exact aluDirect_bad_second ⟨ia, Nat.lt_succ_of_le ha⟩ hs (checkTag_defined ht)

/-! ### The loader port -/

/-- Storing bytes changes memory alone. -/
theorem State.storeBytes_eq (bs : List Byte) (s : State) (a : Nat) : ∃ m, s.storeBytes a bs = { s with mem := m } := by
  induction bs generalizing s a with
  | nil => exact ⟨s.mem, rfl⟩
  | cons b bs ih =>
    rw [State.storeBytes]
    split
    · exact ih _ _
    · exact ⟨s.mem, rfl⟩

/-- After storing bytes that fit from `a` on, a cell at or after `a` holds its byte, if it has one, and every other cell is
unchanged. -/
theorem State.storeBytes_memRead (bs : List Byte) (s : State) (a : Nat) (hfit : a + bs.length ≤ 256) (b : Byte) :
    (s.storeBytes a bs).memRead b = if a ≤ b.toNat then bs.getD (b.toNat - a) (s.memRead b) else s.memRead b := by
  induction bs generalizing s a with
  | nil => simp [State.storeBytes]
  | cons c bs ih =>
    rw [List.length_cons] at hfit
    have ha : (BitVec.ofNat 8 a).toNat = a := by rw [BitVec.toNat_ofNat]; omega
    rw [State.storeBytes, if_pos (by rw [Config.memCells]; omega), ih _ _ (by omega)]
    rcases lt_trichotomy b.toNat a with hlt | rfl | hgt
    · have hne : b ≠ BitVec.ofNat 8 a := by rintro rfl; omega
      rw [if_neg (by omega), if_neg (by omega), State.memWrite_memRead_other s c hne]
    · simp
    · have hne : b ≠ BitVec.ofNat 8 a := by rintro rfl; omega
      have hsucc : b.toNat - a = b.toNat - (a + 1) + 1 := by omega
      rw [if_pos (Nat.succ_le_of_lt hgt), if_pos hgt.le, State.memWrite_memRead_other s c hne, hsucc, List.getD_cons_succ]

/-- Settles O56: the bytes are stored from address 0, and a longer image is refused. -/
theorem loaderWritesTheImageFromZero : Obligations.LoaderWritesTheImageFromZero := by
  intro image s
  refine ⟨fun h => ⟨_, if_pos h, fun a => ?_, ?_⟩, fun h => if_neg (Nat.not_le.mpr h)⟩
  · simpa [Config.loadBase] using s.storeBytes_memRead image 0 (by omega) a
  · obtain ⟨m, hm⟩ := s.storeBytes_eq image Config.loadBase
    rw [hm]
    exact ⟨rfl, rfl, rfl, rfl, rfl, rfl⟩

end Sys2Proof.Machine
